-- ==== Sys2Proof/Word.lean ====
section
/-! DEFINITION. The words of LEDENC: all values are unsigned bit vectors of fixed widths (R14). -/

namespace Sys2Proof

/-- One byte of the frame buffer (R27), and one 8-bit channel value (R8). -/
abbrev Byte := BitVec 8

/-- One command word (R56). -/
abbrev CmdWord := BitVec 64

/-- The `DATA` field of a response (R59). -/
abbrev Data := BitVec 32

/-- The width of `PIXEL_COUNT`, `RESET_BYTES` and `INDEX` (R12). -/
abbrev Count := BitVec 24

/-- The 24 transport bits that encode one channel value (R73). -/
abbrev ChannelCode := BitVec 24

end Sys2Proof
end

