-- ==== Sys2Proof/Config.lean ====
section
/-! DEFINITION. What a build of the block fixes, the constants of R8, and the values the spec leaves open
for good (`isErrorTag`, `terrCode`). The two open build parameters are a `Build`, which State carries so that every statement
over states holds for every build (entry 2). -/

namespace Sys2Proof.Config

/-- `SW`, the symbol width (R7), which the constant register `SW_SUPPORTED` reads as (R26). -/
def symbolWidth : Nat := 3

/-- `BITS_PER_CHANNEL` (R8). -/
def bitsPerChannel : Nat := 8

/-- `CHANNELS`: red, green, blue (R8). -/
def channels : Nat := 3

/-- `BITS_PER_PIXEL` (R8). -/
def bitsPerPixel : Nat := channels * bitsPerChannel

/-- `SYMBOL_BITS_PER_CHANNEL` (R8). -/
def symbolBitsPerChannel : Nat := bitsPerChannel * symbolWidth

/-- `BYTES_PER_CHANNEL`, the ceiling of `8 * SW / 8` (R8). -/
def bytesPerChannel : Nat := (symbolBitsPerChannel + 7) / 8

/-- `BYTES_PER_PIXEL` (R8). -/
def bytesPerPixel : Nat := bitsPerPixel * symbolWidth / 8

/-- Which names of transport errors the transport has: an uninterpreted set, of which nothing is known (R11; entry 3). -/
opaque isErrorTag : Nat → Bool

/-- The transport's error type, which the spec leaves uninterpreted (R11): the names the transport has, and the name 0.
DESIGN CHOICE (entry 3): nothing says how many errors there are, so nothing follows for `terrCode`; that there is one
(R105 lets the transport answer it) and that a name tells errors apart keep the state plain data. -/
structure TransportError where
  /-- A name for the error; the block never looks at it. -/
  tag : Nat
  /-- The transport has the error. -/
  known : tag = 0 ∨ isErrorTag tag = true
  deriving DecidableEq, Repr

/-- `terr_code`, an uninterpreted total function (R11): nothing is known of it (entry 3). -/
opaque terrCode : TransportError → Data

/-- The build parameters that are constant for the life of an instance (R9, R10). -/
structure Build where
  /-- `BUF_CAPACITY` (R9, R24), read as register 0x06. -/
  bufCapacity : BitVec 32
  /-- `STRICT_INDEX` (R10, R25), read as register 0x07. -/
  strictIndex : Bool
  deriving DecidableEq, Repr

/-- The range R9 gives `BUF_CAPACITY`: its upper end is the width's own. -/
abbrev Build.wf (b : Build) : Prop := 9 ≤ b.bufCapacity.toNat

/-- The build `Machine.State.reset` stands for. DESIGN CHOICE (entry 2), unsafe: R9 leaves the capacity open and
4096 is the convention of 95_test_vectors.md; `STRICT_INDEX` is the default of R10. No statement rests on it. -/
def resetBuild : Build := { bufCapacity := 4096, strictIndex := false }

/-- The registers of R35, by name. -/
inductive Reg where
  | state | pixelCount | symbolWidth | resetBytes | pixelBytes | totalBytes | bufCapacity | strictIndex | swSupported
  deriving DecidableEq, Repr

end Sys2Proof.Config
end

