-- ==== Sys2Proof/Syntax.lean ====
section
/-! DEFINITION. The eight commands of R66, one constructor per row of spec/opcode_table.json. Every operand is an
unsigned field of the width its format gives it (R60 to R65, R67), so a term of the type is a well-formed command:
no operand value is outside its field and none is refused by the encoding. -/

namespace Sys2Proof

/-- The commands, with their operands in the order of R71. -/
inductive Instr where
  /-- `ENCODE value` (R61, R78). -/
  | encode (value : Byte)
  /-- `INIT pixel_count, symbol_width, reset_byte_count` (R62, R85). -/
  | init (pcount : Count) (swidth : BitVec 8) (rbytes : Count)
  /-- `SET_PIXEL index, red, green, blue` (R63, R92). -/
  | setPixel (index : Count) (red green blue : Byte)
  /-- `CLEAR` (R60, R96). -/
  | clear
  /-- `RENDER` (R60, R107). -/
  | render
  /-- `RELEASE` (R60, R99). -/
  | release
  /-- `READ_REG reg` (R64, R117). A reserved register number is a legal word that fails with a status (R129). -/
  | readReg (reg : BitVec 8)
  /-- `READ_BYTE addr` (R65, R119). -/
  | readByte (addr : BitVec 32)
  deriving DecidableEq, Repr

end Sys2Proof
end

