-- ==== Sys2Proof/WellFormed.lean ====
section
/-! DEFINITION. Assembler terms and the check of R71: an operand that does not fit its field is an assembly error
and is never truncated. An `Instr` needs no check of its own (Syntax.lean); what a program writer can get wrong is
the literal, so the check stands on the term that holds literals. The spelling of the text (commas, decimal or
hexadecimal) is not modelled (entry 21). -/

namespace Sys2Proof

/-- The operand of `READ_REG`: a number, or a register's name (R71). -/
inductive AsmReg where
  | number (n : Nat)
  | name (r : Config.Reg)
  deriving DecidableEq, Repr

/-- A command as the assembler reads it, operands in the order of R71. Only `index` may carry a minus sign. -/
inductive Asm where
  | encode (value : Nat)
  | init (pixelCount symbolWidth resetByteCount : Nat)
  | setPixel (index : Int) (red green blue : Nat)
  | clear
  | render
  | release
  | readReg (reg : AsmReg)
  | readByte (addr : Nat)
  deriving DecidableEq, Repr

/-- A literal fits an unsigned field of `bits` bits (R71). -/
def fitsField (bits n : Nat) : Bool := n < 2 ^ bits

/-- The literals `SET_PIXEL` takes for its index: a 24-bit one, or `-k` with `1 <= k <= 2^23` (R71). -/
def fitsIndex (index : Int) : Bool := (0 ≤ index && index < 2 ^ 24) || (-(2 ^ 23) ≤ index && index ≤ -1)

/-- A register operand: every name, or a number of 8 bits (R71). -/
def AsmReg.wellFormed : AsmReg → Bool
  | .number n => fitsField 8 n
  | .name _ => true

/-- Every operand fits its field (R71). -/
def Asm.wellFormed : Asm → Bool
  | .encode value => fitsField 8 value
  | .init pixelCount symbolWidth resetByteCount =>
    fitsField 24 pixelCount && fitsField 8 symbolWidth && fitsField 24 resetByteCount
  | .setPixel index red green blue => fitsIndex index && fitsField 8 red && fitsField 8 green && fitsField 8 blue
  | .clear => true
  | .render => true
  | .release => true
  | .readReg reg => reg.wellFormed
  | .readByte addr => fitsField 32 addr

end Sys2Proof
end

