-- ==== Sys2Proof/Decode.lean ====
section
/-! DEFINITION. The opcode map of R66, the decoder (R57, total: a command or the verdict `ILLEGAL`), the encoder
written from the formats of R60 to R65, and the assembler of R71. -/

namespace Sys2Proof

/-- The rows of the opcode map, by mnemonic (R66). -/
inductive Opcode where
  | encode | init | setPixel | clear | render | release | readReg | readByte
  deriving DecidableEq, Repr

/-- The opcode map in the order of R66. -/
def opcodeTable : List Opcode := [.encode, .init, .setPixel, .clear, .render, .release, .readReg, .readByte]

/-- The column OPC of R66. -/
def Opcode.number : Opcode → BitVec 8
  | .encode => 0x01
  | .init => 0x02
  | .setPixel => 0x03
  | .clear => 0x04
  | .render => 0x05
  | .release => 0x06
  | .readReg => 0x07
  | .readByte => 0x08

/-- The column match of R66. -/
def Opcode.pattern : Opcode → CmdWord
  | .encode => 0x0100000000000000
  | .init => 0x0200000000000000
  | .setPixel => 0x0300000000000000
  | .clear => 0x0400000000000000
  | .render => 0x0500000000000000
  | .release => 0x0600000000000000
  | .readReg => 0x0700000000000000
  | .readByte => 0x0800000000000000

/-- The column mask of R66. -/
def Opcode.mask : Opcode → CmdWord
  | .encode => 0xFFFFFFFFFFFFFF00
  | .init => 0xFF00000000000000
  | .setPixel => 0xFF000000FF000000
  | .clear => 0xFFFFFFFFFFFFFFFF
  | .render => 0xFFFFFFFFFFFFFFFF
  | .release => 0xFFFFFFFFFFFFFFFF
  | .readReg => 0xFFFFFFFFFFFFFF00
  | .readByte => 0xFFFFFFFF00000000

/-- The row matches the word: `(w & mask) = match` (R57). -/
def Opcode.selects (o : Opcode) (w : CmdWord) : Bool := w &&& o.mask == o.pattern

/-- The field `w[hi:lo]` (R14), by its low bit and its width. -/
def field (lo width : Nat) (w : CmdWord) : BitVec width := w.extractLsb' lo width

/-- `OPC = w[63:56]` (R56). -/
def opc (w : CmdWord) : BitVec 8 := field 56 8 w

/-- The operands of a word of the row, taken directly from their bits (R61 to R65, R67). -/
def Opcode.operands (w : CmdWord) : Opcode → Instr
  | .encode => .encode (field 0 8 w)
  | .init => .init (field 32 24 w) (field 24 8 w) (field 0 24 w)
  | .setPixel => .setPixel (field 32 24 w) (field 16 8 w) (field 8 8 w) (field 0 8 w)
  | .clear => .clear
  | .render => .render
  | .release => .release
  | .readReg => .readReg (field 0 8 w)
  | .readByte => .readByte (field 0 32 w)

/-- Why a word is illegal (R68). The two reasons answer alike; the names are for the reader (entry 20). -/
inductive IllegalWord where
  /-- An opcode outside 0x01 to 0x08. -/
  | unassignedOpcode
  /-- An assigned opcode with a reserved bit set (R58). -/
  | reservedBits
  deriving DecidableEq, Repr

/-- What a word decodes to (R57). -/
inductive Verdict where
  | command (i : Instr)
  | illegal (why : IllegalWord)
  deriving DecidableEq, Repr

/-- The reason a word that no row matches is rejected with (R68). -/
def rejection (w : CmdWord) : IllegalWord :=
  if opcodeTable.any (fun o => o.number == opc w) then .reservedBits else .unassignedOpcode

/-- The decoder (R57): the command of the row that matches, else `ILLEGAL`. -/
def decode (w : CmdWord) : Verdict :=
  match opcodeTable.find? (fun o => o.selects w) with
  | some o => .command (o.operands w)
  | none => .illegal (rejection w)

/-- Format N (R60). -/
def formatN (op : BitVec 8) : CmdWord := op ++ 0#56

/-- Formats V and R, one 8-bit operand (R61, R64). -/
def formatV (op : BitVec 8) (value : BitVec 8) : CmdWord := op ++ 0#48 ++ value

/-- Format I (R62). -/
def formatI (op : BitVec 8) (pcount : BitVec 24) (swidth : BitVec 8) (rbytes : BitVec 24) : CmdWord :=
  op ++ pcount ++ swidth ++ rbytes

/-- Format P (R63). -/
def formatP (op : BitVec 8) (index : BitVec 24) (red green blue : BitVec 8) : CmdWord :=
  op ++ index ++ 0#8 ++ red ++ green ++ blue

/-- Format A (R65). -/
def formatA (op : BitVec 8) (addr : BitVec 32) : CmdWord := op ++ 0#24 ++ addr

/-- The word of a command, from its format (R60 to R66). -/
def encode : Instr → CmdWord
  | .encode value => formatV 0x01#8 value
  | .init pcount swidth rbytes => formatI 0x02#8 pcount swidth rbytes
  | .setPixel index red green blue => formatP 0x03#8 index red green blue
  | .clear => formatN 0x04#8
  | .render => formatN 0x05#8
  | .release => formatN 0x06#8
  | .readReg reg => formatV 0x07#8 reg
  | .readByte addr => formatA 0x08#8 addr

/-- The row of a command (R66). -/
def Instr.opcode : Instr → Opcode
  | .encode _ => .encode
  | .init _ _ _ => .init
  | .setPixel _ _ _ _ => .setPixel
  | .clear => .clear
  | .render => .render
  | .release => .release
  | .readReg _ => .readReg
  | .readByte _ => .readByte

/-- The number of a register (R35). -/
def regNumber : Config.Reg → BitVec 8
  | .state => 0x00
  | .pixelCount => 0x01
  | .symbolWidth => 0x02
  | .resetBytes => 0x03
  | .pixelBytes => 0x04
  | .totalBytes => 0x05
  | .bufCapacity => 0x06
  | .strictIndex => 0x07
  | .swSupported => 0x08

/-- The register number an assembler operand stands for (R71). -/
def asmRegNumber : AsmReg → BitVec 8
  | .number n => BitVec.ofNat 8 n
  | .name r => regNumber r

/-- The command an assembler term stands for once its operands fit (R71): `-k` is the field `2^24 - k`. -/
def asmInstr : Asm → Instr
  | .encode value => .encode (BitVec.ofNat 8 value)
  | .init pixelCount symbolWidth resetByteCount =>
    .init (BitVec.ofNat 24 pixelCount) (BitVec.ofNat 8 symbolWidth) (BitVec.ofNat 24 resetByteCount)
  | .setPixel index red green blue =>
    .setPixel (BitVec.ofInt 24 index) (BitVec.ofNat 8 red) (BitVec.ofNat 8 green) (BitVec.ofNat 8 blue)
  | .clear => .clear
  | .render => .render
  | .release => .release
  | .readReg reg => .readReg (asmRegNumber reg)
  | .readByte addr => .readByte (BitVec.ofNat 32 addr)

/-- The assembler: the command's word, or none where an operand does not fit its field (R71). -/
def assemble (a : Asm) : Option CmdWord := if a.wellFormed then some (encode (asmInstr a)) else none

/-- The instruction the decoder reads from a word given as the opcode table numbers its bits; a command is one
64-bit word (R56), so there is nothing to lay out. -/
def decodeTableWord (nbits w : Nat) : Option Instr :=
  match decode (BitVec.ofNat 64 (w % 2 ^ nbits)) with
  | .command i => some i
  | .illegal _ => none

end Sys2Proof
end

