-- ==== Sys2Proof/Machine/State.lean ====
section
/-! DEFINITION. The state of LEDENC (R17), its reset value (R37), and the reasons a step can stop. -/

namespace Sys2Proof.Machine

/-- The status codes of R123 that are produced; 0x7 to 0xF are reserved and never produced. -/
inductive Status where
  | ok | configError | indexOutOfRange | transmitError | notConfigured | illegalCommand | badAddress
  deriving DecidableEq, Repr

/-- One response `{STATUS, DATA}` (R59). -/
structure Response where
  status : Status
  data : Data
  deriving DecidableEq, Repr

/-- `STATE` (R18). While `RENDERING` the block holds the in-flight write (R32), which exists in no other value, so
it is that value's argument (entry 1). Value 3 is reserved and never held. -/
inductive Lifecycle where
  /-- 0: no frame buffer exists. -/
  | unconfigured
  /-- 1: a frame buffer exists and no render is in progress. -/
  | idle
  /-- 2: a `RENDER` has been accepted and its transport write, of `frame`, has not completed. -/
  | rendering (frame : List Byte)
  deriving DecidableEq, Repr

/-- What the transport answers to a write (R105). -/
inductive Answer where
  | ok
  | err (e : Config.TransportError)
  deriving DecidableEq, Repr

/-- The outcome of an entry of `TXLOG` (R34). -/
inductive TxOutcome where
  | ok
  | err (e : Config.TransportError)
  | aborted
  deriving DecidableEq, Repr

/-- One entry of `TXLOG` (R34). -/
structure TxEntry where
  bytes : List Byte
  outcome : TxOutcome
  deriving DecidableEq, Repr

/-- What the outside does other than presenting a command. -/
inductive Event where
  /-- The transport answers the write number `call`: the first write of the log is number 0. Naming the write lets
  a late answer to an abandoned write be told from an answer to the write in flight (R140; entry 5). -/
  | answer (call : Nat) (a : Answer)
  /-- The reset input is asserted (R139). -/
  | reset
  deriving DecidableEq, Repr

/-- One thing the outside does (entry 4). -/
inductive Input where
  /-- The host presents a command word on the command port (R56). -/
  | command (w : CmdWord)
  | event (e : Event)
  deriving DecidableEq, Repr

/-- The bytes of the frame buffer that differ from what an unlisted address reads as, in the canonical form of
`Memory.wf`. -/
abbrev Memory := List Host.Cell

/-- The architectural state (R17), the observation `TXLOG` (R34), and the two ends of the command port. -/
structure State where
  /-- `STATE` with the in-flight write (R18, R32). -/
  lifecycle : Lifecycle
  /-- `PIXEL_COUNT` (R19). -/
  pixelCount : Count
  /-- `SYMBOL_WIDTH` (R20). -/
  symbolWidth : BitVec 8
  /-- `RESET_BYTES` (R21). -/
  resetBytes : Count
  /-- The constants `BUF_CAPACITY` and `STRICT_INDEX` (R24, R25); no step changes them (entry 2). -/
  build : Config.Build
  /-- `FB` (R27). -/
  fb : Memory
  /-- `TXLOG` (R34), oldest first. -/
  txlog : List TxEntry
  /-- MODEL'S OWN: the responses put out so far, oldest first (R59; entry 11). -/
  responses : List Response
  /-- MODEL'S OWN: what the outside does next, oldest first (entry 4). Commands that a render holds stay here. -/
  inputs : List Input
  deriving DecidableEq, Repr

/-- Why the machine stops. -/
inductive Fault where
  /-- Raised by the step of a state that is `RENDERING` with no answer and no reset among its inputs: the stuck
  state of R111. SAFE (entry 7): it claims nothing of the machine; an answer or a reset added to the inputs lets
  it step again. -/
  | transportSilent
  deriving DecidableEq, Repr

/-- Why a command has no meaning. -/
inductive Refusal where
  /-- Raised by the dispatch for an instruction that has no meaning yet: SAFE. No arm raises it now. -/
  | notModelled (mnemonic : String)
  deriving DecidableEq, Repr

/-- The state of a build right after power-up and reset (R37, R139): `UNCONFIGURED`, the configuration registers 0,
nothing in `FB`, nothing observed and nothing presented yet (entries 9 to 12). -/
def State.powerOn (b : Config.Build) : State where
  lifecycle := .unconfigured
  pixelCount := 0
  symbolWidth := 0
  resetBytes := 0
  build := b
  fb := []
  txlog := []
  responses := []
  inputs := []

/-- The machine right after reset, for the build of `Config.resetBuild` (entry 2). -/
def State.reset : State := State.powerOn Config.resetBuild

end Sys2Proof.Machine
end

