-- ==== Sys2Proof/Machine/Ops.lean ====
section
/-! DEFINITION. The named operations over the frame buffer, the registers and the command port: reading and writing
bytes (R15, R40), the derived registers (R22, R23), `respond` and `raise` (R15), and the hardware reset (R139, R140). -/

namespace Sys2Proof.Machine

/-- What an addressable byte that is not listed reads as: the zero fill of `INIT` (R44, R86; entry 10). -/
def Memory.unlisted : Byte := 0x00

/-- The canonical form: addresses strictly rising, and no entry equal to what an unlisted address reads as. -/
abbrev Memory.wf (m : Memory) : Prop :=
  m.Pairwise (fun c d => c.1 < d.1) ∧ ∀ c ∈ m, c.2 ≠ Memory.unlisted

/-- The byte at an address. Whether the address is addressable is `State.addressable`'s to say. -/
def Memory.read : Memory → Nat → Byte
  | [], _ => Memory.unlisted
  | (k, x) :: m, a => if k = a then x else Memory.read m a

/-- Put a byte in front of a list whose addresses are all higher, unless it is what an unlisted address reads as. -/
def Memory.put (a : Nat) (b : Byte) (m : Memory) : Memory := if b = Memory.unlisted then m else (a, b) :: m

/-- Store one byte; the canonical form is kept. -/
def Memory.write : Memory → Nat → Byte → Memory
  | [], a, b => Memory.put a b []
  | (k, x) :: m, a, b =>
    if a < k then Memory.put a b ((k, x) :: m)
    else if a = k then Memory.put a b m
    else (k, x) :: Memory.write m a b

/-- Store bytes at rising addresses from `a`. -/
def Memory.writeBytes : Memory → Nat → List Byte → Memory
  | m, _, [] => m
  | m, a, b :: bs => Memory.writeBytes (Memory.write m a b) (a + 1) bs

/-- The bytes of an n-byte value, most significant first (R40). -/
def bytesOf (n : Nat) (v : BitVec (8 * n)) : List Byte :=
  (List.range n).map fun k => v.extractLsb' (8 * (n - 1 - k)) 8

/-- The n-byte value of bytes, most significant first (R40). -/
def valueOf (n : Nat) (bs : List Byte) : BitVec (8 * n) :=
  BitVec.ofNat (8 * n) (bs.foldl (fun acc b => 256 * acc + b.toNat) 0)

/-- The bytes at addresses `a .. a+n-1`. -/
def Memory.readBytes (m : Memory) (a n : Nat) : List Byte := (List.range n).map fun k => Memory.read m (a + k)

/-- `MemRead(addr, n)` (R15). -/
def memRead (m : Memory) (a n : Nat) : BitVec (8 * n) := valueOf n (Memory.readBytes m a n)

/-- `MemWrite(addr, n, v)` (R15). -/
def memWrite (m : Memory) (a n : Nat) (v : BitVec (8 * n)) : Memory := Memory.writeBytes m a (bytesOf n v)

/-- The zero fill of `INIT`, 0x00 to exactly the addresses `0 .. total-1` (R86), as one pass: what is listed below
`total` goes (entry 13). -/
def Memory.zeroFill (m : Memory) (total : Nat) : Memory := m.filter fun c => total ≤ c.1

/-- `PIXEL_BYTES` (R22). -/
def State.pixelBytes (s : State) : Nat := Config.bytesPerPixel * s.pixelCount.toNat

/-- `TOTAL_BYTES` (R23). -/
def State.totalBytes (s : State) : Nat := s.pixelBytes + s.resetBytes.toNat

/-- `STATE != UNCONFIGURED`: a frame buffer exists (R18). -/
def State.configured (s : State) : Bool :=
  match s.lifecycle with
  | .unconfigured => false
  | .idle => true
  | .rendering _ => true

/-- `STATE = RENDERING` (R18). -/
def State.isRendering (s : State) : Bool :=
  match s.lifecycle with
  | .unconfigured => false
  | .idle => false
  | .rendering _ => true

/-- The addressable cells (R27, R38). -/
def State.addressable (s : State) (a : Nat) : Bool := s.configured && a < s.totalBytes

/-- The value of a cell of `FB`: none where it is not addressable (R27; entry 10). -/
def State.fbByte (s : State) (a : Nat) : Option Byte := if s.addressable a then some (Memory.read s.fb a) else none

/-- `FB[0 .. TOTAL_BYTES-1]`, the pixel region and the reset tail: what a `RENDER` sends (R51, R107). -/
def State.frame (s : State) : List Byte := Memory.readBytes s.fb 0 s.totalBytes

/-- `respond(status, data)` (R15): end the command and put its response on the command port (R59). -/
def respond (st : Status) (d : Data) (s : State) : State := { s with responses := s.responses ++ [⟨st, d⟩] }

/-- `raise E(info)`: the block's one way to report an error, `respond(E, info)` with no other effect (R15, R122,
R132). There is no vector to go to and nothing to return from (R132, R133). -/
def raise (e : Status) (info : Data) (s : State) : State := respond e info s

/-- What a reset adds to `TXLOG`: the write it cuts off (R140), and nothing otherwise (R37). -/
def abortedWrite : Lifecycle → List TxEntry
  | .unconfigured => []
  | .idle => []
  | .rendering frame => [⟨frame, .aborted⟩]

/-- The hardware reset (R37, R139, R140): no response, no transport write; the commands still presented on the port
stay there (entry 6). -/
def hardwareReset (s : State) : State :=
  { s with
    lifecycle := .unconfigured
    pixelCount := 0
    symbolWidth := 0
    resetBytes := 0
    fb := []
    txlog := s.txlog ++ abortedWrite s.lifecycle }

end Sys2Proof.Machine
end

