-- ==== Sys2Proof/Machine/Encoder.lean ====
section
/-! DEFINITION. The BitEncoder and the `ENCODE` command (40_bit_encoder.md): `ENC`, its inverse `DEC`, and the closed
form of R74. -/

namespace Sys2Proof.Machine

/-- `SYM(b)`, the symbol of a logical bit, first transmitted bit leftmost (R73). -/
def sym (b : Bool) : BitVec 3 := if b then 0b110 else 0b100

/-- `ENC`: the symbols of the bits of `v`, most significant first (R73). -/
def enc (v : Byte) : ChannelCode :=
  sym (v.getLsbD 7) ++ sym (v.getLsbD 6) ++ sym (v.getLsbD 5) ++ sym (v.getLsbD 4) ++
    sym (v.getLsbD 3) ++ sym (v.getLsbD 2) ++ sym (v.getLsbD 1) ++ sym (v.getLsbD 0)

/-- `spread(v)`, the sum over `j` of `v[j] * 2^(3*j)` (R74). -/
def spread (v : Byte) : ChannelCode :=
  BitVec.ofNat 24 (((List.range 8).map fun j => (v.getLsbD j).toNat * 2 ^ (3 * j)).sum)

/-- `s_j = x[3*j+2 : 3*j]` (R80). -/
def symbolAt (x : ChannelCode) (j : Nat) : BitVec 3 := x.extractLsb' (3 * j) 3

/-- The 3-bit patterns that are symbols (R73, R82). -/
def isSymbol (s : BitVec 3) : Bool := s == 0b100 || s == 0b110

/-- The middle bits of the eight symbols of `x` (R80). -/
def middleBits (x : ChannelCode) : Byte :=
  BitVec.ofBool (x.getLsbD 22) ++ BitVec.ofBool (x.getLsbD 19) ++ BitVec.ofBool (x.getLsbD 16) ++
    BitVec.ofBool (x.getLsbD 13) ++ BitVec.ofBool (x.getLsbD 10) ++ BitVec.ofBool (x.getLsbD 7) ++
    BitVec.ofBool (x.getLsbD 4) ++ BitVec.ofBool (x.getLsbD 1)

/-- `DEC` (R80), a specification function: no command computes it. -/
def dec (x : ChannelCode) : Option Byte :=
  if (List.range 8).all (fun j => isSymbol (symbolAt x j)) then some (middleBits x) else none

/-- `ENC_BLACK` (R79). -/
def encBlack : ChannelCode := 0x924924

/-- `ENC_WHITE` (R79). -/
def encWhite : ChannelCode := 0xDB6DB6

/-- `ENCODE value` (R78): the encoding of the operand, in every `STATE`; no state but the response. -/
def execEncode (value : Byte) (s : State) : Host.Outcome State Fault Refusal :=
  .next (respond .ok ((enc value).setWidth 32) s)

end Sys2Proof.Machine
end

