-- ==== Sys2Proof/Machine/Flags.lean ====
section
/-! DEFINITION. LEDENC has no status flags and no condition codes (R30): a command's outcome is the `STATUS` of its
own response. This file holds the codes of that field (R123) and of `STATE` (R18). -/

namespace Sys2Proof.Machine

/-- The code of a status (R123). -/
def statusCode : Status → BitVec 4
  | .ok => 0x0
  | .configError => 0x1
  | .indexOutOfRange => 0x2
  | .transmitError => 0x3
  | .notConfigured => 0x4
  | .illegalCommand => 0x5
  | .badAddress => 0x6

/-- The 2-bit value of `STATE` (R18). -/
def stateCode : Lifecycle → BitVec 2
  | .unconfigured => 0
  | .idle => 1
  | .rendering _ => 2

end Sys2Proof.Machine
end

