-- ==== Sys2Proof/Machine/Operands.lean ====
section
/-! DEFINITION. The operand forms: the register number of `READ_REG` (R35, R64), the pixel index (R41, R92) and the
byte address of `READ_BYTE` (R119). Every operand is unsigned and zero-extended (R67). -/

namespace Sys2Proof.Machine

/-- The register a number of R35 names; none for a reserved number. -/
def regOfNumber (n : BitVec 8) : Option Config.Reg :=
  [Config.Reg.state, .pixelCount, .symbolWidth, .resetBytes, .pixelBytes, .totalBytes, .bufCapacity, .strictIndex,
    .swSupported].find? fun r => regNumber r == n

/-- The value of a register, zero-extended to 32 bits (R35). -/
def readRegister (s : State) : Config.Reg → Data
  | .state => (stateCode s.lifecycle).setWidth 32
  | .pixelCount => s.pixelCount.setWidth 32
  | .symbolWidth => s.symbolWidth.setWidth 32
  | .resetBytes => s.resetBytes.setWidth 32
  | .pixelBytes => BitVec.ofNat 32 s.pixelBytes
  | .totalBytes => BitVec.ofNat 32 s.totalBytes
  | .bufCapacity => s.build.bufCapacity
  | .strictIndex => (BitVec.ofBool s.build.strictIndex).setWidth 32
  | .swSupported => BitVec.ofNat 32 Config.symbolWidth

/-- The address of the block of pixel `i` (R41). -/
def pixelBase (i : Nat) : Nat := Config.bytesPerPixel * i

/-- `INDEX < PIXEL_COUNT` (R92). -/
def State.indexInRange (s : State) (index : Count) : Bool := index.toNat < s.pixelCount.toNat

end Sys2Proof.Machine
end

