-- ==== Sys2Proof/Machine/FrameBuffer.lean ====
section
/-! DEFINITION. The FrameBuffer commands `INIT`, `SET_PIXEL`, `CLEAR`, `RELEASE` (41_framebuffer.md). -/

namespace Sys2Proof.Machine

/-- The size `INIT` asks for (R85), exact. -/
def initTotal (pcount rbytes : Count) : Nat := Config.bytesPerPixel * pcount.toNat + rbytes.toNat

/-- The four causes of `CONFIG_ERROR` (R85, R124); they answer alike, so their order cannot be seen (R131). -/
def initFails (pcount : Count) (swidth : BitVec 8) (rbytes : Count) (s : State) : Bool :=
  s.configured || pcount == 0 || swidth.toNat != Config.symbolWidth ||
    s.build.bufCapacity.toNat < initTotal pcount rbytes

/-- `INIT pixel_count, symbol_width, reset_byte_count` (R85 to R90). -/
def execInit (pcount : Count) (swidth : BitVec 8) (rbytes : Count) (s : State) : Host.Outcome State Fault Refusal :=
  if initFails pcount swidth rbytes s then .next (raise .configError 0 s)
  else
    .next (respond .ok 0
      { s with
        pixelCount := pcount
        symbolWidth := swidth
        resetBytes := rbytes
        fb := Memory.zeroFill s.fb (initTotal pcount rbytes)
        lifecycle := .idle })

/-- `WritePixel(i, r, g, b)` (R91): green, then red, then blue, each through the one encoder. -/
def writePixel (m : Memory) (i : Nat) (r g b : Byte) : Memory :=
  memWrite (memWrite (memWrite m (pixelBase i) 3 (enc g)) (pixelBase i + 3) 3 (enc r)) (pixelBase i + 6) 3 (enc b)

/-- `SET_PIXEL index, red, green, blue` (R92 to R95). -/
def execSetPixel (index : Count) (red green blue : Byte) (s : State) : Host.Outcome State Fault Refusal :=
  if s.configured then
    if s.indexInRange index then .next (respond .ok 0 { s with fb := writePixel s.fb index.toNat red green blue })
    else if s.build.strictIndex then .next (raise .indexOutOfRange 0 s)
    else .next (respond .ok 0 s)
  else .next (raise .notConfigured 0 s)

/-- `WritePixel(i, 0x00, 0x00, 0x00)` for `i` in `0 .. n-1`, in that order (R96). -/
def clearPixels (m : Memory) : Nat → Memory
  | 0 => m
  | n + 1 => writePixel (clearPixels m n) n 0 0 0

/-- `CLEAR` (R96 to R98): every pixel black through the encoder (90_conflicts.md C1). -/
def execClear (s : State) : Host.Outcome State Fault Refusal :=
  if s.configured then .next (respond .ok 0 { s with fb := clearPixels s.fb s.pixelCount.toNat })
  else .next (raise .notConfigured 0 s)

/-- `RELEASE` (R99, R100): the cells are left with no value and no address (R55; entry 10). -/
def execRelease (s : State) : Host.Outcome State Fault Refusal :=
  if s.configured then
    .next (respond .ok 0
      { s with pixelCount := 0, symbolWidth := 0, resetBytes := 0, fb := [], lifecycle := .unconfigured })
  else .next (raise .notConfigured 0 s)

end Sys2Proof.Machine
end

