-- ==== Sys2Proof/Machine/ReadBack.lean ====
section
/-! DEFINITION. The read-back commands `READ_REG` and `READ_BYTE` (43_readback.md). -/

namespace Sys2Proof.Machine

/-- `READ_REG reg` (R117, R118). -/
def execReadReg (reg : BitVec 8) (s : State) : Host.Outcome State Fault Refusal :=
  match regOfNumber reg with
  | some r => .next (respond .ok (readRegister s r) s)
  | none => .next (raise .badAddress 0 s)

/-- `READ_BYTE addr` (R119). -/
def execReadByte (addr : BitVec 32) (s : State) : Host.Outcome State Fault Refusal :=
  if s.configured then
    if addr.toNat < s.totalBytes then .next (respond .ok ((memRead s.fb addr.toNat 1).setWidth 32) s)
    else .next (raise .badAddress 0 s)
  else .next (raise .notConfigured 0 s)

end Sys2Proof.Machine
end

