-- ==== Sys2Proof/Machine/Render.lean ====
section
/-! DEFINITION. `RENDER` and the transport port (42_render.md): the acceptance of the command, which starts the one
transport write, and the completion of it when the transport answers. -/

namespace Sys2Proof.Machine

/-- `RENDER` up to and including its call of `Transport.write` (R107): `STATE` is `RENDERING` with the frame in
flight (R32) and no response has been put out. `completeRender` is the rest (92_eei_decisions.md D1). -/
def execRender (s : State) : Host.Outcome State Fault Refusal :=
  if s.configured then .next { s with lifecycle := .rendering s.frame } else .next (raise .notConfigured 0 s)

/-- The outcome `TXLOG` records for an answer (R34). -/
def outcomeOf : Answer → TxOutcome
  | .ok => .ok
  | .err e => .err e

/-- The response of a `RENDER` whose write was answered (R108, R109). -/
def answerResponse (a : Answer) (s : State) : State :=
  match a with
  | .ok => respond .ok 0 s
  | .err e => raise .transmitError (Config.terrCode e) s

/-- The rest of `RENDER` once the transport has answered the write of `frame` (R107 to R109). -/
def completeRender (frame : List Byte) (a : Answer) (s : State) : State :=
  answerResponse a { s with lifecycle := .idle, txlog := s.txlog ++ [⟨frame, outcomeOf a⟩] }

/-- The transport answers write number `call`. The write in flight is the one after the last entry of `TXLOG`; an
answer to any other is an answer to an abandoned write and is ignored (R140; entry 5). -/
def onAnswer (call : Nat) (a : Answer) (s : State) : State :=
  match s.lifecycle with
  | .unconfigured => s
  | .idle => s
  | .rendering frame => if call = s.txlog.length then completeRender frame a s else s

end Sys2Proof.Machine
end

