-- ==== Sys2Proof/Machine/Dispatch.lean ====
section
/-! DEFINITION. One arm per command: the effect of a command the port has accepted. -/

namespace Sys2Proof.Machine

/-- The effect of an accepted command. -/
def exec (i : Instr) (s : State) : Host.Outcome State Fault Refusal :=
  match i with
  | .encode value => Sys2Proof.Machine.execEncode value s
  | .init pcount swidth rbytes => Sys2Proof.Machine.execInit pcount swidth rbytes s
  | .setPixel index red green blue => Sys2Proof.Machine.execSetPixel index red green blue s
  | .clear => Sys2Proof.Machine.execClear s
  | .render => Sys2Proof.Machine.execRender s
  | .release => Sys2Proof.Machine.execRelease s
  | .readReg reg => Sys2Proof.Machine.execReadReg reg s
  | .readByte addr => Sys2Proof.Machine.execReadByte addr s

end Sys2Proof.Machine
end

