-- ==== Sys2Proof/Machine/Port.lean ====
section
/-! DEFINITION. The command port, the reset line and the answers of the transport: what one step takes from the
outside (R50, R139, R144; entry 4). -/

namespace Sys2Proof.Machine

/-- Accept a command word (R57): run its command, or answer `ILLEGAL_COMMAND` with no other effect (R68, R128). -/
def accept (w : CmdWord) (s : State) : Host.Outcome State Fault Refusal :=
  match decode w with
  | .command i => exec i s
  | .illegal _ => .next (raise .illegalCommand 0 s)

/-- The first event among the inputs, and the inputs without it. The commands before it are held: they stay, in order
(R144). -/
def takeEvent : List Input → Option (Event × List Input)
  | [] => none
  | .command w :: rest =>
    match takeEvent rest with
    | some (e, left) => some (e, .command w :: left)
    | none => none
  | .event e :: rest => some (e, rest)

/-- An event takes effect. -/
def onEvent (e : Event) (s : State) : State :=
  match e with
  | .answer call a => onAnswer call a s
  | .reset => hardwareReset s

/-- A step while `RENDERING`: the port accepts no command (R144); an answer or a reset is awaited, without end if none
comes (R111; entry 7). -/
def stepRendering (s : State) : Host.Outcome State Fault Refusal :=
  match takeEvent s.inputs with
  | some (e, left) => .next (onEvent e { s with inputs := left })
  | none => .fault .transportSilent

/-- A step while not `RENDERING`: the next input takes effect; with none, the block waits and loses nothing (R138;
entry 8). -/
def stepReady (s : State) : Host.Outcome State Fault Refusal :=
  match s.inputs with
  | [] => .next s
  | .command w :: rest => accept w { s with inputs := rest }
  | .event e :: rest => .next (onEvent e { s with inputs := rest })

/-- One step of the block. -/
def stepBlock (s : State) : Host.Outcome State Fault Refusal := if s.isRendering then stepRendering s else stepReady s

/-- Present a command word ahead of every other input. -/
def presentWord (w : CmdWord) (s : State) : State := { s with inputs := .command w :: s.inputs }

end Sys2Proof.Machine
end

