-- ==== Sys2Proof/Machine/Step.lean ====
section
/-! DEFINITION. The step of the machine, and the placing of one command where the next step takes it. -/

namespace Sys2Proof.Machine

/-- One step: see `stepBlock`. -/
def step (s : State) : Host.Outcome State Fault Refusal := stepBlock s

/-- The state in which the host has presented the command whose `nbits` low bits are `w` and the rest zero, so that
it is the next input. The block fetches nothing (R29, R53): the command port is where a command comes from (entry 9). -/
def State.withFetchWord (s : State) (nbits w : Nat) : State := presentWord (BitVec.ofNat 64 (w % 2 ^ nbits)) s

end Sys2Proof.Machine
end

