-- ==== Sys2Proof/Machine/Wire.lean ====
section
/-! DEFINITION. The transport's view of a write: the order of the bits on the data line (R40) and what may have
reached it (R109, R112, R140). No command computes these; statements about the line are written in them. They rest on
the transport's duties of R106, which the block does not check (entry 15). -/

namespace Sys2Proof.Machine

/-- The bits of a byte in transmission order, bit 7 first (R40). -/
def byteBits (b : Byte) : List Bool := (List.range 8).map fun k => b.getLsbD (7 - k)

/-- The bits of a byte sequence in transmission order: rising addresses (R40). -/
def lineBits (bytes : List Byte) : List Bool := bytes.flatMap byteBits

/-- The symbol of a logical bit as a bit sequence, first transmitted bit first (R73). -/
def symbolBits (b : Bool) : List Bool := if b then [true, true, false] else [true, false, false]

/-- The channel bytes of a value (R75). -/
def channelBytes (v : Byte) : List Byte := bytesOf 3 (enc v)

/-- The byte sequences that may have reached the data line for an entry of `TXLOG`: the whole frame on `Ok` (R109),
any prefix of it, from empty to whole, after an error or a reset (R112, R140). -/
def TxEntry.mayReachWire (t : TxEntry) (sent : List Byte) : Prop :=
  match t.outcome with
  | .ok => sent = t.bytes
  | .err _ => sent <+: t.bytes
  | .aborted => sent <+: t.bytes

end Sys2Proof.Machine
end

