-- ==== Sys2Proof/Safety.lean ====
section
/-! DEFINITION. What the statements mean by a good state of the block, and by a stuck one. -/

namespace Sys2Proof.Machine

/-- The 3-byte value at channel slot `k` of the pixel region, counting three slots a pixel (R41, R42). -/
def channelSlot (m : Memory) (k : Nat) : ChannelCode := memRead m (3 * k) 3

/-- What a channel slot may hold: the zero fill, or an encoding (R45, R81). -/
def slotContentOk (x : ChannelCode) : Prop := x = 0 ∨ ∃ v : Byte, x = enc v

/-- The registers (R37, R99) and the storage while no frame buffer exists. -/
structure State.Vacant (s : State) : Prop where
  pixelCount : s.pixelCount = 0
  symbolWidth : s.symbolWidth = 0
  resetBytes : s.resetBytes = 0
  /-- The model's representation (entry 10): R27, R37 and R99 leave the contents unspecified. -/
  storage : s.fb = []

/-- The registers and the storage while a frame buffer exists. -/
structure State.Allocated (s : State) : Prop where
  /-- R19. -/
  pixelCount : s.pixelCount ≠ 0
  /-- R20. -/
  symbolWidth : s.symbolWidth.toNat = Config.symbolWidth
  /-- R23. -/
  capacity : s.totalBytes ≤ s.build.bufCapacity.toNat
  /-- The reset region reads 0x00 (R43). That the storage reads 0x00 beyond it too is the model's representation
  (entry 10): no cell there is addressable. -/
  resetRegion : ∀ a, s.pixelBytes ≤ a → Memory.read s.fb a = 0
  /-- R45. -/
  pixelRegion : ∀ k, k < 3 * s.pixelCount.toNat → slotContentOk (channelSlot s.fb k)

/-- The invariant of the block. -/
structure State.Inv (s : State) : Prop where
  /-- R9. -/
  build : s.build.wf
  /-- The storage is in its canonical form, the model's representation (entry 10). -/
  canonical : Memory.wf s.fb
  /-- R19 to R21, R37. -/
  vacant : s.lifecycle = .unconfigured → s.Vacant
  allocated : s.lifecycle ≠ .unconfigured → s.Allocated
  /-- The write in flight is the buffer as it stands: nothing changes it while `RENDERING` (R32, R113). -/
  inFlight : ∀ frame, s.lifecycle = .rendering frame → frame = s.frame

/-- The stuck state of R111: a render in progress, and neither an answer nor a reset to come. -/
def State.stuck (s : State) : Bool := s.isRendering && (takeEvent s.inputs).isNone

/-- The command words among the inputs, in order: what the port holds or has not yet been offered. -/
def commandWords : List Input → List CmdWord
  | [] => []
  | .command w :: rest => w :: commandWords rest
  | .event _ :: rest => commandWords rest

/-- The block's next step accepts the command `i`. -/
def State.accepts (s : State) (i : Instr) : Prop :=
  s.isRendering = false ∧ ∃ w rest, s.inputs = .command w :: rest ∧ decode w = .command i

/-- The block's next step is the event `e`: the next input while no render is in progress, else the first event among
the inputs. -/
def State.takes (s : State) (e : Event) : Prop :=
  (s.isRendering = false ∧ ∃ rest, s.inputs = .event e :: rest) ∨
    (s.isRendering = true ∧ ∃ left, takeEvent s.inputs = some (e, left))

/-- Commands accepted one after the other (R50). -/
def execAll : List Instr → State → Host.Outcome State Fault Refusal
  | [], s => .next s
  | i :: is, s =>
    match exec i s with
    | .next t => execAll is t
    | .fault f => .fault f
    | .refused r => .refused r

/-- `n` steps, to the first fault or refusal. -/
def stepN : Nat → State → Host.Outcome State Fault Refusal
  | 0, s => .next s
  | n + 1, s =>
    match step s with
    | .next t => stepN n t
    | .fault f => .fault f
    | .refused r => .refused r

/-- The commands that only read (R48). -/
def isRead : Instr → Bool
  | .encode _ => true
  | .init _ _ _ => false
  | .setPixel _ _ _ _ => false
  | .clear => false
  | .render => false
  | .release => false
  | .readReg _ => true
  | .readByte _ => true

end Sys2Proof.Machine
end

