-- ==== Sys2Proof/Certificates/Slice0/Obligations.lean ====
section
/-! DEFINITION. The statements for the provers. Each docstring names the rules of spec/ its statement formalises, and,
where a clause is the model's own choice, the log entry (notes/assumptions/). `s.isRendering = false` says that the
command port accepts commands (R144). A statement that needs the storage's canonical form takes `Memory.wf s.fb` as a
premise, which `EveryStepKeepsTheInvariant` supplies for every reachable state. -/

open Sys2Proof Sys2Proof.Machine

/-! ### Encoding (30_encoding.md) -/

/-- R57: the rows of the opcode map decide the decoding, at most one of them matches, and a word that none matches is
`ILLEGAL`. -/
def Obligations.DecodeTakesTheUniqueMatchingRow : Prop :=
  (∀ (o : Opcode) (w : CmdWord), w &&& o.mask = o.pattern → decode w = .command (o.operands w)) ∧
  (∀ w : CmdWord, (∀ o : Opcode, w &&& o.mask ≠ o.pattern) → ∃ why, decode w = .illegal why) ∧
  ∀ (o o' : Opcode) (w : CmdWord), w &&& o.mask = o.pattern → w &&& o'.mask = o'.pattern → o = o'

/-- R60 to R67: the word of every command, with every operand at every value its field admits, decodes to that
command. -/
def Obligations.DecodeOfEncodeIsTheCommand : Prop := ∀ i : Instr, decode (encode i) = .command i

/-- R58: there are no ignored bits, so a word that decodes to a command is that command's one word; and a word with a
reserved field that is not zero is `ILLEGAL`. -/
def Obligations.NoBitOfAWordIsIgnored : Prop :=
  (∀ (w : CmdWord) (i : Instr), decode w = .command i → encode i = w) ∧
  ∀ w : CmdWord,
    ((opc w = 0x01 ∧ field 8 48 w ≠ 0) ∨ (opc w = 0x03 ∧ field 24 8 w ≠ 0) ∨
      ((opc w = 0x04 ∨ opc w = 0x05 ∨ opc w = 0x06) ∧ field 0 56 w ≠ 0) ∨
      (opc w = 0x07 ∧ field 8 48 w ≠ 0) ∨ (opc w = 0x08 ∧ field 32 24 w ≠ 0)) →
    ∃ why, decode w = .illegal why

/-- R68: which words are illegal, and that an illegal word completes with `ILLEGAL_COMMAND`, `DATA` 0 and no other
effect, whatever the state the port accepts it in. -/
def Obligations.IllegalWordsAnswerIllegalCommand : Prop :=
  (∀ w : CmdWord, (opc w = 0 ∨ 9 ≤ (opc w).toNat) → ∃ why, decode w = .illegal why) ∧
  (∀ w : CmdWord, (∃ o : Opcode, o.number = opc w ∧ w &&& o.mask ≠ o.pattern) → ∃ why, decode w = .illegal why) ∧
  (∃ why, decode 0 = .illegal why) ∧
  ∀ (s : State) (w : CmdWord) (rest : List Input) (why : IllegalWord), s.isRendering = false →
    s.inputs = .command w :: rest → decode w = .illegal why →
    step s = .next { s with inputs := rest, responses := s.responses ++ [⟨.illegalCommand, 0⟩] }

/-- Words written out from R60 to R66 decode to their commands. All but the `SET_PIXEL` word, which is written out from
R63, stand in 95_test_vectors.md. -/
def Obligations.SampleWordsDecode : Prop :=
  decode 0x01000000000000A5 = .command (.encode 0xA5) ∧
  decode 0x020000030300000A = .command (.init 3 3 10) ∧
  decode 0x03FFFFFF00808182 = .command (.setPixel 0xFFFFFF 0x80 0x81 0x82) ∧
  decode 0x0400000000000000 = .command .clear ∧
  decode 0x0500000000000000 = .command .render ∧
  decode 0x0600000000000000 = .command .release ∧
  decode 0x0700000000000005 = .command (.readReg 5) ∧
  decode 0x080000000000000C = .command (.readByte 12)

/-- R71, with the widths of R60 to R65: an operand that does not fit its field is an assembly error, and one that fits is
kept as written. Form by form: with an operand outside its width nothing is assembled; with every operand inside, a word
is, and it decodes to the command with the literals written. A register's name is its number of R35; an index `-k` is
the field `2^24 - k`, as if that were written. -/
def Obligations.AssemblerNeverTruncates : Prop :=
  (∀ v : Nat, (2 ^ 8 ≤ v → assemble (.encode v) = none) ∧
    (v < 2 ^ 8 → ∃ w x, assemble (.encode v) = some w ∧ decode w = .command (.encode x) ∧ x.toNat = v)) ∧
  (∀ n sw r : Nat, (2 ^ 24 ≤ n ∨ 2 ^ 8 ≤ sw ∨ 2 ^ 24 ≤ r → assemble (.init n sw r) = none) ∧
    (n < 2 ^ 24 → sw < 2 ^ 8 → r < 2 ^ 24 → ∃ w p x q, assemble (.init n sw r) = some w ∧
      decode w = .command (.init p x q) ∧ p.toNat = n ∧ x.toNat = sw ∧ q.toNat = r)) ∧
  (∀ (k : Int) (r g b : Nat),
    (k < -(2 ^ 23) ∨ 2 ^ 24 ≤ k ∨ 2 ^ 8 ≤ r ∨ 2 ^ 8 ≤ g ∨ 2 ^ 8 ≤ b → assemble (.setPixel k r g b) = none) ∧
    (-(2 ^ 23) ≤ k → k < 2 ^ 24 → r < 2 ^ 8 → g < 2 ^ 8 → b < 2 ^ 8 → ∃ w j x y z,
      assemble (.setPixel k r g b) = some w ∧ decode w = .command (.setPixel j x y z) ∧
      (j.toNat : Int) = (if k < 0 then 2 ^ 24 + k else k) ∧ x.toNat = r ∧ y.toNat = g ∧ z.toNat = b)) ∧
  (∀ k r g b : Nat, 1 ≤ k → k ≤ 2 ^ 23 →
    assemble (.setPixel (-(k : Int)) r g b) = assemble (.setPixel (2 ^ 24 - (k : Int)) r g b)) ∧
  (∃ w, assemble .clear = some w ∧ decode w = .command .clear) ∧
  (∃ w, assemble .render = some w ∧ decode w = .command .render) ∧
  (∃ w, assemble .release = some w ∧ decode w = .command .release) ∧
  (∀ n : Nat, (2 ^ 8 ≤ n → assemble (.readReg (.number n)) = none) ∧
    (n < 2 ^ 8 → ∃ w x, assemble (.readReg (.number n)) = some w ∧ decode w = .command (.readReg x) ∧ x.toNat = n)) ∧
  (∀ x ∈ [(Config.Reg.state, 0), (.pixelCount, 1), (.symbolWidth, 2), (.resetBytes, 3), (.pixelBytes, 4),
      (.totalBytes, 5), (.bufCapacity, 6), (.strictIndex, 7), (.swSupported, 8)],
    assemble (.readReg (.name x.1)) = assemble (.readReg (.number x.2))) ∧
  ∀ a : Nat, (2 ^ 32 ≤ a → assemble (.readByte a) = none) ∧
    (a < 2 ^ 32 → ∃ w x, assemble (.readByte a) = some w ∧ decode w = .command (.readByte x) ∧ x.toNat = a)

/-- A step runs the decoded command: with the port ready and a command word next, the step is `exec` of that word's
command, at the state without the word. -/
def Obligations.AStepRunsTheDecodedCommand : Prop :=
  ∀ (s : State) (w : CmdWord) (rest : List Input) (i : Instr), s.isRendering = false →
    s.inputs = .command w :: rest → decode w = .command i → step s = exec i { s with inputs := rest }

/-- The model's placing of a word (`withFetchWord`, entry 9) puts a command where the next step runs it, from every
state whose port is ready. -/
def Obligations.APresentedCommandRunsNext : Prop :=
  ∀ (s : State) (i : Instr), s.isRendering = false → step (s.withFetchWord 64 (encode i).toNat) = exec i s

/-! ### The encoder (40_bit_encoder.md) -/

/-- R74: the bits of `ENC(v)` and its closed form. -/
def Obligations.EncBitEquations : Prop :=
  (∀ (v : Byte) (j : Nat), j < 8 →
    (enc v).getLsbD (3 * j + 2) = true ∧ (enc v).getLsbD (3 * j + 1) = v.getLsbD j ∧
      (enc v).getLsbD (3 * j) = false) ∧
  ∀ v : Byte, enc v = 0x924924 ||| (spread v <<< 1)

/-- R80: `DEC` inverts `ENC`, answers none off the encodings, and `ENC` is injective. -/
def Obligations.DecInvertsEnc : Prop :=
  (∀ v : Byte, dec (enc v) = some v) ∧
  (∀ v v' : Byte, enc v = enc v' → v = v') ∧
  (∀ x : ChannelCode, (∃ j, j < 8 ∧ symbolAt x j ≠ 0b100 ∧ symbolAt x j ≠ 0b110) → dec x = none) ∧
  ∀ (x : ChannelCode) (v : Byte), dec x = some v → x = enc v

/-- R82: the encoder produces symbols only; a zero-filled slot is no encoding, and on the line it is held low. -/
def Obligations.EncProducesSymbolsOnly : Prop :=
  (∀ (v : Byte) (j : Nat), j < 8 → symbolAt (enc v) j = 0b100 ∨ symbolAt (enc v) j = 0b110) ∧
  dec 0x000000 = none ∧ lineBits [0x00, 0x00, 0x00] = List.replicate 24 false

/-- R73: on the line a channel is the concatenation of the symbols of its bits, most significant first. -/
def Obligations.ChannelBytesCarryTheSymbols : Prop :=
  ∀ v : Byte,
    lineBits (channelBytes v) =
      symbolBits (v.getLsbD 7) ++ symbolBits (v.getLsbD 6) ++ symbolBits (v.getLsbD 5) ++ symbolBits (v.getLsbD 4) ++
        symbolBits (v.getLsbD 3) ++ symbolBits (v.getLsbD 2) ++ symbolBits (v.getLsbD 1) ++ symbolBits (v.getLsbD 0)

/-- R40: big-endian storage, and bytes on the wire most significant bit first in rising address order. -/
def Obligations.BytesAndBitsAreMostSignificantFirst : Prop :=
  (∀ (bytes : List Byte) (k : Nat) (b : Byte), bytes[k / 8]? = some b →
    (lineBits bytes)[k]? = some (b.getLsbD (7 - k % 8))) ∧
  (∀ (m : Memory) (a n : Nat) (v : BitVec (8 * n)) (k : Nat), Memory.wf m → k < n →
    Memory.read (memWrite m a n v) (a + k) = v.extractLsb' (8 * (n - 1 - k)) 8) ∧
  ∀ (m : Memory) (a n k : Nat), k < n →
    (memRead m a n).extractLsb' (8 * (n - 1 - k)) 8 = Memory.read m (a + k)

/-- R78: `ENCODE` answers the encoding in every state and changes nothing else. -/
def Obligations.EncodeAnswersTheEncoding : Prop :=
  ∀ (v : Byte) (s : State), ∃ d : Data, d.toNat = (enc v).toNat ∧
    exec (.encode v) s = .next { s with responses := s.responses ++ [⟨.ok, d⟩] }

/-! ### The frame-buffer commands (41_framebuffer.md) -/

/-- R85: `INIT` with good operands on a vacant block configures it over a zero-filled buffer; with a bad operand, or on
a configured block, it answers `CONFIG_ERROR`. Nothing else changes: not the bytes at or beyond the new total, which
stay unaddressable. -/
def Obligations.InitFollowsItsRule : Prop :=
  (∀ (p : Count) (w : BitVec 8) (r : Count) (s : State), s.lifecycle = .unconfigured → p ≠ 0 → w.toNat = 3 →
    9 * p.toNat + r.toNat ≤ s.build.bufCapacity.toNat →
    ∃ t, exec (.init p w r) s = .next t ∧
      t = { s with lifecycle := .idle, pixelCount := p, symbolWidth := w, resetBytes := r, fb := t.fb,
                   responses := s.responses ++ [⟨.ok, 0⟩] } ∧
      (∀ a, a < 9 * p.toNat + r.toNat → t.fbByte a = some 0x00) ∧
      ∀ a, 9 * p.toNat + r.toNat ≤ a → t.fbByte a = none ∧ Memory.read t.fb a = Memory.read s.fb a) ∧
  ∀ (p : Count) (w : BitVec 8) (r : Count) (s : State),
    (s.lifecycle ≠ .unconfigured ∨ p = 0 ∨ w.toNat ≠ 3 ∨ s.build.bufCapacity.toNat < 9 * p.toNat + r.toNat) →
    exec (.init p w r) s = .next { s with responses := s.responses ++ [⟨.configError, 0⟩] }

/-- R85's loop `for a in 0 .. total-1: MemWrite(a, 1, 0x00)` leaves the memory the one-pass zero fill leaves, as data
(entry 13). -/
def Obligations.ZeroFillIsTheLoopOfWrites : Prop :=
  ∀ (m : Memory) (total : Nat), Memory.wf m →
    (List.range total).foldl (fun m' a => memWrite m' a 1 0x00) m = Memory.zeroFill m total

/-- R42 and R93: an in-range `SET_PIXEL` stores the encodings of green, red and blue, in that order, in the nine bytes
from `9 * INDEX`, and changes no other byte and nothing else. The address is the one the meaning uses. -/
def Obligations.SetPixelWritesItsWindowOnly : Prop :=
  ∀ (i : Count) (r g b : Byte) (s : State), s.lifecycle ≠ .unconfigured → i.toNat < s.pixelCount.toNat →
    Memory.wf s.fb →
    ∃ t, exec (.setPixel i r g b) s = .next t ∧ pixelBase i.toNat = 9 * i.toNat ∧
      memRead t.fb (pixelBase i.toNat + 0) 3 = enc g ∧
      memRead t.fb (pixelBase i.toNat + 3) 3 = enc r ∧
      memRead t.fb (pixelBase i.toNat + 6) 3 = enc b ∧
      (∀ a, a < pixelBase i.toNat ∨ pixelBase i.toNat + 9 ≤ a → Memory.read t.fb a = Memory.read s.fb a) ∧
      t = { s with fb := t.fb, responses := s.responses ++ [⟨.ok, 0⟩] }

/-- R94: an out-of-range `SET_PIXEL` changes nothing under either policy; only the response tells them apart. -/
def Obligations.SetPixelOutOfRangeChangesNothing : Prop :=
  ∀ (i : Count) (r g b : Byte) (s : State), s.lifecycle ≠ .unconfigured → s.pixelCount.toNat ≤ i.toNat →
    (s.build.strictIndex = false →
      exec (.setPixel i r g b) s = .next { s with responses := s.responses ++ [⟨.ok, 0⟩] }) ∧
    (s.build.strictIndex = true →
      exec (.setPixel i r g b) s = .next { s with responses := s.responses ++ [⟨.indexOutOfRange, 0⟩] })

/-- R67 and R71: the index `-1`, which is `0xFFFFFF`, is out of range of every buffer. -/
def Obligations.IndexMinusOneIsNeverValid : Prop :=
  ∀ (r g b : Byte) (s : State), s.lifecycle ≠ .unconfigured →
    ∃ st, exec (.setPixel (BitVec.ofInt 24 (-1)) r g b) s = .next { s with responses := s.responses ++ [⟨st, 0⟩] }

/-- R95: the slot after an in-range `SET_PIXEL` depends on its operands only, and the last `SET_PIXEL` to a pixel wins
(a repeated one is idempotent: take the two alike), as equality of the storage. -/
def Obligations.TheLastSetPixelWins : Prop :=
  (∀ (i : Count) (r g b : Byte) (s s' t t' : State), s.lifecycle ≠ .unconfigured → s'.lifecycle ≠ .unconfigured →
    i.toNat < s.pixelCount.toNat → i.toNat < s'.pixelCount.toNat → Memory.wf s.fb → Memory.wf s'.fb →
    exec (.setPixel i r g b) s = .next t → exec (.setPixel i r g b) s' = .next t' →
    Memory.readBytes t.fb (9 * i.toNat) 9 = Memory.readBytes t'.fb (9 * i.toNat) 9) ∧
  ∀ (i : Count) (r g b r' g' b' : Byte) (s t u v : State), Memory.wf s.fb → exec (.setPixel i r g b) s = .next t →
    exec (.setPixel i r' g' b') t = .next u → exec (.setPixel i r' g' b') s = .next v → u.fb = v.fb

/-- R104: the host recovers a pixel's operands from its nine encoded bytes with `DEC`. -/
def Obligations.PixelOperandsAreRecoverable : Prop :=
  ∀ (i : Count) (r g b : Byte) (s : State), s.lifecycle ≠ .unconfigured → i.toNat < s.pixelCount.toNat →
    Memory.wf s.fb →
    ∃ t, exec (.setPixel i r g b) s = .next t ∧ dec (channelSlot t.fb (3 * i.toNat)) = some g ∧
      dec (channelSlot t.fb (3 * i.toNat + 1)) = some r ∧ dec (channelSlot t.fb (3 * i.toNat + 2)) = some b

/-- R96: `CLEAR` stores black, through the encoder, in every channel slot of the pixel region and changes nothing else;
without a buffer it answers `NOT_CONFIGURED`. -/
def Obligations.ClearWritesBlackToEverySlot : Prop :=
  (∀ s : State, s.lifecycle ≠ .unconfigured → Memory.wf s.fb →
    ∃ t, exec .clear s = .next t ∧
      (∀ k, k < 3 * s.pixelCount.toNat → channelSlot t.fb k = 0x924924) ∧
      (∀ a, s.pixelBytes ≤ a → Memory.read t.fb a = Memory.read s.fb a) ∧
      t = { s with fb := t.fb, responses := s.responses ++ [⟨.ok, 0⟩] }) ∧
  ∀ s : State, s.lifecycle = .unconfigured →
    exec .clear s = .next { s with responses := s.responses ++ [⟨.notConfigured, 0⟩] }

/-- R97: `CLEAR` leaves the same storage and registers as `SET_PIXEL i, 0, 0, 0` for every pixel, in any order that
names each pixel. -/
def Obligations.ClearIsBlackPixelByPixel : Prop :=
  ∀ (s : State) (order : List Count), s.lifecycle ≠ .unconfigured → Memory.wf s.fb →
    (∀ i ∈ order, i.toNat < s.pixelCount.toNat) → (∀ i : Count, i.toNat < s.pixelCount.toNat → i ∈ order) →
    ∃ t u, exec .clear s = .next t ∧ execAll (order.map fun i => .setPixel i 0 0 0) s = .next u ∧
      u = { t with responses := u.responses }

/-- R48: a second `CLEAR` changes no byte. -/
def Obligations.ClearIsIdempotent : Prop :=
  ∀ s t u : State, Memory.wf s.fb → exec .clear s = .next t → exec .clear t = .next u → u.fb = t.fb

/-- R98: `INIT` and `CLEAR` leave different pixel regions: after `INIT` no channel slot is a valid encoding, after the
`CLEAR` that follows every one is black. -/
def Obligations.InitAndClearDiffer : Prop :=
  ∀ (p : Count) (r : Count) (s t u : State) (k : Nat), Memory.wf s.fb → s.lifecycle = .unconfigured → p ≠ 0 →
    9 * p.toNat + r.toNat ≤ s.build.bufCapacity.toNat → exec (.init p 3 r) s = .next t → exec .clear t = .next u →
    k < 3 * p.toNat → dec (channelSlot t.fb k) = none ∧ channelSlot u.fb k = 0x924924

/-- R99: `RELEASE` frees the buffer; without one it answers `NOT_CONFIGURED`. -/
def Obligations.ReleaseFreesTheBuffer : Prop :=
  (∀ s : State, s.lifecycle ≠ .unconfigured →
    ∃ t, exec .release s = .next t ∧
      t = { s with lifecycle := .unconfigured, pixelCount := 0, symbolWidth := 0, resetBytes := 0, fb := t.fb,
                   responses := s.responses ++ [⟨.ok, 0⟩] } ∧
      ∀ a, t.fbByte a = none) ∧
  ∀ s : State, s.lifecycle = .unconfigured →
    exec .release s = .next { s with responses := s.responses ++ [⟨.notConfigured, 0⟩] }

/-- R55: after `RELEASE` or reset no byte is addressable, and the bytes a later `INIT` makes addressable do not depend
on anything stored before: two blocks that differ in their storage only agree on every cell after it. -/
def Obligations.NoByteSurvivesReinitialisation : Prop :=
  (∀ s t : State, s.lifecycle ≠ .unconfigured → exec .release s = .next t → ∀ a, t.fbByte a = none) ∧
  (∀ (s : State) (a : Nat), (hardwareReset s).fbByte a = none) ∧
  ∀ (p : Count) (w : BitVec 8) (r : Count) (s s' t t' : State), s.lifecycle = .unconfigured →
    s' = { s with fb := s'.fb } → exec (.init p w r) s = .next t → exec (.init p w r) s' = .next t' →
    ∀ a, t.fbByte a = t'.fbByte a

/-- R43: no command but `INIT` writes the reset region, and in every reachable configured state it reads 0x00. -/
def Obligations.TheResetRegionStaysZero : Prop :=
  (∀ (i : Instr) (s t : State), Memory.wf s.fb → s.lifecycle ≠ .unconfigured → t.lifecycle ≠ .unconfigured →
    exec i s = .next t → ∀ a, s.pixelBytes ≤ a → a < s.totalBytes → t.fbByte a = s.fbByte a) ∧
  ∀ s t : State, s.Inv → step s = .next t → t.lifecycle ≠ .unconfigured →
    ∀ a, t.pixelBytes ≤ a → a < t.totalBytes → t.fbByte a = some 0x00

/-! ### RENDER and the transport (42_render.md) -/

/-- R51: `RENDER` on an idle block puts in flight exactly the bytes `0 .. TOTAL_BYTES-1` of the buffer as it stands and
changes nothing else. -/
def Obligations.RenderPutsTheWholeBufferInFlight : Prop :=
  ∀ s : State, s.lifecycle = .idle →
    ∃ frame : List Byte, frame.length = s.totalBytes ∧
      (∀ a, a < s.totalBytes → frame[a]? = some (Memory.read s.fb a)) ∧
      exec .render s = .next { s with lifecycle := .rendering frame }

/-- R107 to R109: when the transport answers, the render completes: idle again, the frame and the answer logged, the
response, and no other change; commands the port held are held on. That the answer names the write by its place in the
log is the model's choice (entry 5). -/
def Obligations.AnAnswerCompletesTheRender : Prop :=
  ∀ (s : State) (held : List CmdWord) (rest : List Input), s.lifecycle = .idle → ∃ r, exec .render s = .next r ∧
    (s.inputs = held.map .command ++ .event (.answer s.txlog.length .ok) :: rest →
      step r = .next { s with txlog := s.txlog ++ [⟨s.frame, .ok⟩], responses := s.responses ++ [⟨.ok, 0⟩],
                              inputs := held.map .command ++ rest }) ∧
    ∀ e, s.inputs = held.map .command ++ .event (.answer s.txlog.length (.err e)) :: rest →
      step r = .next { s with txlog := s.txlog ++ [⟨s.frame, .err e⟩],
                              responses := s.responses ++ [⟨.transmitError, Config.terrCode e⟩],
                              inputs := held.map .command ++ rest }

/-- R111: a step has no next state exactly when a render waits and neither an answer nor a reset is to come; the stop
is the named fault (entry 7), and no step is refused. -/
def Obligations.OnlyASilentTransportStopsTheBlock : Prop :=
  (∀ s : State, (∃ t, step s = .next t) ∨ step s = .fault .transportSilent) ∧
  ∀ s : State, step s = .fault .transportSilent ↔
    (∃ frame, s.lifecycle = .rendering frame) ∧ ∃ held : List CmdWord, s.inputs = held.map .command

/-- R144: from its acceptance until its response or a reset, a render makes the port accept no command: a step that is
not a reset drops no word the host has presented, and leaves the buffer and the registers alone; a step that leaves the
render in progress does nothing at all but to take its input; and the first held command is accepted once the block is
idle. -/
def Obligations.TheRenderHoldsTheCommandPort : Prop :=
  ∀ (s t : State) (frame : List Byte), s.lifecycle = .rendering frame → step s = .next t →
    (¬ s.takes .reset → commandWords t.inputs = commandWords s.inputs ∧ t.fb = s.fb ∧
      t.pixelCount = s.pixelCount ∧ t.symbolWidth = s.symbolWidth ∧ t.resetBytes = s.resetBytes) ∧
    (t.isRendering = true → t = { s with inputs := t.inputs }) ∧
    ∀ (w : CmdWord) (rest : List Input) (i : Instr), t.lifecycle = .idle → t.inputs = .command w :: rest →
      decode w = .command i → step t = exec i { t with inputs := rest }

/-- R34: a step leaves the log of the transport alone, or ends the write in flight and appends one entry with its
frame. -/
def Obligations.TheLogGrowsByEndedWritesOnly : Prop :=
  ∀ s t : State, step s = .next t → t.txlog = s.txlog ∨
    ∃ frame outcome, s.lifecycle = .rendering frame ∧ t.isRendering = false ∧ t.txlog = s.txlog ++ [⟨frame, outcome⟩]

/-- R114: every frame ends with `RESET_BYTES` zero bytes after its `PIXEL_BYTES`. The last clause, that the last
`8 * RESET_BYTES` line bits of it are low, is R114's under the transport's duties of R106 only: it speaks of the model's
view of the data line, which rests on entry 15. -/
def Obligations.EveryFrameEndsWithTheResetTail : Prop :=
  ∀ (s : State) (frame : List Byte), s.Inv → s.lifecycle = .rendering frame →
    ∃ pixels : List Byte, pixels.length = s.pixelBytes ∧
      frame = pixels ++ List.replicate s.resetBytes.toNat 0x00 ∧
      lineBits frame = lineBits pixels ++ List.replicate (8 * s.resetBytes.toNat) false

/-- R115: a `RENDER` directly after `INIT` sends `TOTAL_BYTES` zero bytes. -/
def Obligations.ARenderAfterInitSendsZeros : Prop :=
  ∀ (p r : Count) (s t u : State), s.lifecycle = .unconfigured → p ≠ 0 →
    9 * p.toNat + r.toNat ≤ s.build.bufCapacity.toNat → exec (.init p 3 r) s = .next t → exec .render t = .next u →
    u.lifecycle = .rendering (List.replicate (9 * p.toNat + r.toNat) 0x00)

/-- R116: two `RENDER`s with only reading commands between them hand identical frames to the transport, whatever it
answers to the first. -/
def Obligations.TwoRendersSendTheSameFrame : Prop :=
  ∀ (s : State) (reads : List Instr) (a b : Answer), s.lifecycle = .idle → (∀ i ∈ reads, isRead i = true) →
    s.inputs = [.command (encode .render), .event (.answer s.txlog.length a)] ++
      reads.map (fun i => .command (encode i)) ++
      [.command (encode .render), .event (.answer (s.txlog.length + 1) b)] →
    ∃ t, stepN s.inputs.length s = .next t ∧ t.inputs = [] ∧
      t.txlog = s.txlog ++ [⟨s.frame, outcomeOf a⟩, ⟨s.frame, outcomeOf b⟩]

/-- The model's view of what may have reached the data line (`mayReachWire`, entry 15): after an error or a reset any
prefix of the frame, counted in bytes, from nothing to all of it, and nothing else (R112, R140); after `Ok` the whole
frame, which R112 gives under the transport's duties of R106 only. -/
def Obligations.AFailedWriteMayHaveSentAnyPrefix : Prop :=
  (∀ (t : TxEntry) (n : Nat), t.outcome ≠ .ok → t.mayReachWire (t.bytes.take n)) ∧
  (∀ (t : TxEntry) (sent : List Byte), t.mayReachWire sent → ∃ n, n ≤ t.bytes.length ∧ sent = t.bytes.take n) ∧
  ∀ (t : TxEntry) (sent : List Byte), t.outcome = .ok → (t.mayReachWire sent ↔ sent = t.bytes)

/-! ### Read-back (43_readback.md) -/

/-- R117 and R35: `READ_REG` answers each register by its number, exactly, and `BAD_ADDRESS` for a reserved number; it
changes nothing. -/
def Obligations.ReadRegAnswersTheRegister : Prop :=
  (∀ (s : State) (n : BitVec 8), n.toNat ≤ 8 → s.isRendering = false →
    ∃ d : Data, exec (.readReg n) s = .next { s with responses := s.responses ++ [⟨.ok, d⟩] } ∧
      d.toNat =
        (if n = 0 then (if s.lifecycle = .unconfigured then 0 else 1)
        else if n = 1 then s.pixelCount.toNat
        else if n = 2 then s.symbolWidth.toNat
        else if n = 3 then s.resetBytes.toNat
        else if n = 4 then 9 * s.pixelCount.toNat
        else if n = 5 then 9 * s.pixelCount.toNat + s.resetBytes.toNat
        else if n = 6 then s.build.bufCapacity.toNat
        else if n = 7 then (if s.build.strictIndex = true then 1 else 0)
        else 3)) ∧
  ∀ (s : State) (n : BitVec 8), 8 < n.toNat →
    exec (.readReg n) s = .next { s with responses := s.responses ++ [⟨.badAddress, 0⟩] }

/-- R118: while `UNCONFIGURED` the state, configuration and derived registers read 0 and the constants their values. -/
def Obligations.UnconfiguredRegistersReadZero : Prop :=
  ∀ (s : State) (n : BitVec 8), s.Inv → s.lifecycle = .unconfigured → n.toNat ≤ 8 →
    ∃ d : Data, exec (.readReg n) s = .next { s with responses := s.responses ++ [⟨.ok, d⟩] } ∧
      (n.toNat ≤ 5 → d = 0) ∧ (n = 6 → d = s.build.bufCapacity) ∧
      (n = 7 → d = if s.build.strictIndex = true then 1 else 0) ∧ (n = 8 → d = 3)

/-- R119: `READ_BYTE` answers the addressed byte; `BAD_ADDRESS` past the buffer, `NOT_CONFIGURED` without one. -/
def Obligations.ReadByteAnswersTheByte : Prop :=
  (∀ (a : BitVec 32) (s : State), s.lifecycle ≠ .unconfigured → a.toNat < s.totalBytes →
    ∃ d : Data, d.toNat = (Memory.read s.fb a.toNat).toNat ∧
      exec (.readByte a) s = .next { s with responses := s.responses ++ [⟨.ok, d⟩] }) ∧
  (∀ (a : BitVec 32) (s : State), s.lifecycle ≠ .unconfigured → s.totalBytes ≤ a.toNat →
    exec (.readByte a) s = .next { s with responses := s.responses ++ [⟨.badAddress, 0⟩] }) ∧
  ∀ (a : BitVec 32) (s : State), s.lifecycle = .unconfigured →
    exec (.readByte a) s = .next { s with responses := s.responses ++ [⟨.notConfigured, 0⟩] }

/-- R120 and R77: the reading commands change nothing but their own response, so any number of them may come before
another command without changing what it stores, logs or answers. -/
def Obligations.ReadsDoNotDisturbOtherCommands : Prop :=
  (∀ (i : Instr) (s t : State), isRead i = true → exec i s = .next t →
    ∃ r, t = { s with responses := s.responses ++ [r] }) ∧
  ∀ (reads : List Instr) (i : Instr) (s t : State), (∀ r ∈ reads, isRead r = true) → exec i s = .next t →
    ∃ u v answers new, execAll reads s = .next u ∧ exec i u = .next v ∧ answers.length = reads.length ∧
      t.responses = s.responses ++ new ∧ v = { t with responses := s.responses ++ answers ++ new }

/-! ### Errors (60_exceptions.md) -/

/-- The columns code and name of R123 and value and name of R18: the code of every status, none of them a reserved one,
and the value of every `STATE`, never 3. -/
def Obligations.StatusAndStateCodesAreTheTables : Prop :=
  statusCode .ok = 0x0 ∧ statusCode .configError = 0x1 ∧ statusCode .indexOutOfRange = 0x2 ∧
  statusCode .transmitError = 0x3 ∧ statusCode .notConfigured = 0x4 ∧ statusCode .illegalCommand = 0x5 ∧
  statusCode .badAddress = 0x6 ∧ (∀ st : Status, (statusCode st).toNat < 0x7) ∧
  stateCode .unconfigured = 0 ∧ stateCode .idle = 1 ∧ (∀ frame, stateCode (.rendering frame) = 2) ∧
  ∀ l : Lifecycle, stateCode l ≠ 3

/-- R122, as far as it counts responses: in every state and for every operand `exec` answers a next state with exactly
one response more, but for a `RENDER` that starts its write, which answers with the write in flight and no response; its
one response comes with the transport's answer, which ends the render. What a command's effect is, other statements
say. How the answer names the write is the model's choice (entry 5), and so is `exec` on a state that is `RENDERING`
(entry 14). -/
def Obligations.EveryCommandCompletesWithOneResponse : Prop :=
  (∀ (i : Instr) (s : State), ∃ t, exec i s = .next t ∧
    (i = .render ∧ s.lifecycle ≠ .unconfigured → t = { s with lifecycle := .rendering s.frame }) ∧
    (¬ (i = .render ∧ s.lifecycle ≠ .unconfigured) →
      (∃ r, t.responses = s.responses ++ [r]) ∧ (t.isRendering = true → t.lifecycle = s.lifecycle))) ∧
  ∀ (s : State) (a : Answer), s.isRendering = true → s.takes (.answer s.txlog.length a) →
    ∃ t r, step s = .next t ∧ t.lifecycle = .idle ∧ t.responses = s.responses ++ [r]

/-- R59: `DATA` is 0 but for `OK` to `ENCODE`, `READ_REG` and `READ_BYTE`, where it is the result, and for
`TRANSMIT_ERROR`, where it is the code of the error the transport answered (entry 5 for how the answer names its write). -/
def Obligations.DataIsZeroButInFourCases : Prop :=
  ∀ (s t : State) (st : Status) (d : Data), step s = .next t → t.responses = s.responses ++ [⟨st, d⟩] → d ≠ 0 →
    (st = .ok ∧ ∃ v, s.accepts (.encode v) ∧ d.toNat = (enc v).toNat) ∨
    (st = .ok ∧ ∃ n r, s.accepts (.readReg n) ∧ regOfNumber n = some r ∧ d = readRegister s r) ∨
    (st = .ok ∧ ∃ a, s.accepts (.readByte a) ∧ d.toNat = (Memory.read s.fb a.toNat).toNat) ∨
    (st = .transmitError ∧ ∃ e, d = Config.terrCode e ∧ s.takes (.answer s.txlog.length (.err e)))

/-- R124, R127, R128 and R129, and R125 as far as it names the cause: a status that reports an error of the command is
answered exactly on its causes, with `DATA` 0. -/
def Obligations.EachErrorHasExactlyItsCauses : Prop :=
  ∀ (s : State) (d : Data),
    ((∃ t, step s = .next t ∧ t.responses = s.responses ++ [⟨.configError, d⟩]) ↔
      d = 0 ∧ ∃ p w r, s.accepts (.init p w r) ∧
        (s.lifecycle ≠ .unconfigured ∨ p = 0 ∨ w.toNat ≠ 3 ∨ s.build.bufCapacity.toNat < 9 * p.toNat + r.toNat)) ∧
    ((∃ t, step s = .next t ∧ t.responses = s.responses ++ [⟨.indexOutOfRange, d⟩]) ↔
      d = 0 ∧ ∃ i r g b, s.accepts (.setPixel i r g b) ∧ s.lifecycle ≠ .unconfigured ∧
        s.pixelCount.toNat ≤ i.toNat ∧ s.build.strictIndex = true) ∧
    ((∃ t, step s = .next t ∧ t.responses = s.responses ++ [⟨.notConfigured, d⟩]) ↔
      d = 0 ∧ s.lifecycle = .unconfigured ∧ ((∃ i r g b, s.accepts (.setPixel i r g b)) ∨ s.accepts .clear ∨
        s.accepts .render ∨ s.accepts .release ∨ ∃ a, s.accepts (.readByte a))) ∧
    ((∃ t, step s = .next t ∧ t.responses = s.responses ++ [⟨.illegalCommand, d⟩]) ↔
      d = 0 ∧ s.isRendering = false ∧ ∃ w rest why, s.inputs = .command w :: rest ∧ decode w = .illegal why) ∧
    ((∃ t, step s = .next t ∧ t.responses = s.responses ++ [⟨.badAddress, d⟩]) ↔
      d = 0 ∧ ((∃ n, s.accepts (.readReg n) ∧ 8 < n.toNat) ∨
        ∃ a, s.accepts (.readByte a) ∧ s.lifecycle ≠ .unconfigured ∧ s.totalBytes ≤ a.toNat))

/-- R126: `TRANSMIT_ERROR` has one cause, an error that the transport answers to the write in flight, and carries its
code. That the answer names the write by its place in the log is the model's choice (entry 5). -/
def Obligations.TransmitErrorReportsTheTransportsError : Prop :=
  ∀ (s : State) (d : Data),
    (∃ t, step s = .next t ∧ t.responses = s.responses ++ [⟨.transmitError, d⟩]) ↔
      s.isRendering = true ∧ ∃ e, s.takes (.answer s.txlog.length (.err e)) ∧ d = Config.terrCode e

/-- R130: every error is precise and has no effect; a `RENDER` that fails changes only the log, and is idle again. -/
def Obligations.ErrorsHaveNoOtherEffect : Prop :=
  ∀ (s t : State) (st : Status) (d : Data), step s = .next t → t.responses = s.responses ++ [⟨st, d⟩] →
    (st ≠ .ok → st ≠ .transmitError → t = { s with inputs := t.inputs, responses := t.responses }) ∧
    (st = .transmitError → ∃ frame e, s.lifecycle = .rendering frame ∧
      t = { s with lifecycle := .idle, txlog := s.txlog ++ [⟨frame, .err e⟩], inputs := t.inputs,
                   responses := t.responses })

/-! ### Reset (70_reset_and_hazards.md) and the whole machine -/

/-- R139 and R37: a reset, between two commands or during a render, leaves every piece of state at its reset value, with
no response and no transport write; the constants are unchanged, the write in flight is discarded, and the log changes
only by the record of a write the reset cuts off. -/
def Obligations.ResetLeavesTheResetValues : Prop :=
  ∀ s : State, s.takes .reset →
    ∃ t, step s = .next t ∧ t.lifecycle = .unconfigured ∧ t.pixelCount = 0 ∧ t.symbolWidth = 0 ∧ t.resetBytes = 0 ∧
      t.pixelBytes = 0 ∧ t.totalBytes = 0 ∧ t.build = s.build ∧ (∀ a, t.fbByte a = none) ∧
      t.responses = s.responses ∧ (s.isRendering = false → t.txlog = s.txlog) ∧
      ∀ frame, s.lifecycle = .rendering frame → t.txlog = s.txlog ++ [⟨frame, .aborted⟩]

/-- R37: the machine's reset state holds the reset values, whatever the build; `State.reset` is that state for the
build of entry 2. -/
def Obligations.TheResetStateIsUnconfigured : Prop :=
  (∀ b : Config.Build, (State.powerOn b).lifecycle = .unconfigured ∧ (State.powerOn b).pixelCount = 0 ∧
    (State.powerOn b).symbolWidth = 0 ∧ (State.powerOn b).resetBytes = 0 ∧ (State.powerOn b).pixelBytes = 0 ∧
    (State.powerOn b).totalBytes = 0 ∧ (State.powerOn b).build = b ∧ ∀ a, (State.powerOn b).fbByte a = none) ∧
  ∃ b, State.reset = State.powerOn b

/-- R140: a reset during a render abandons the write: the log records it as aborted, the render gets no response, and
the block is unconfigured. That the commands the port held stay on it is the model's choice (entry 6). -/
def Obligations.ResetAbandonsTheWriteInFlight : Prop :=
  ∀ (s : State) (frame : List Byte) (held : List CmdWord) (rest : List Input), s.lifecycle = .rendering frame →
    s.inputs = held.map .command ++ .event .reset :: rest →
    ∃ t, step s = .next t ∧ t.lifecycle = .unconfigured ∧ t.pixelCount = 0 ∧ t.symbolWidth = 0 ∧ t.resetBytes = 0 ∧
      t.build = s.build ∧ (∀ a, t.fbByte a = none) ∧ t.txlog = s.txlog ++ [⟨frame, .aborted⟩] ∧
      t.responses = s.responses ∧ t.inputs = held.map .command ++ rest

/-- R140: an answer that is not to the write in flight (entry 5: the one the log's length numbers) is ignored. -/
def Obligations.LateAnswersAreIgnored : Prop :=
  ∀ (s : State) (call : Nat) (a : Answer) (held : List CmdWord) (rest : List Input),
    (s.isRendering = true → call ≠ s.txlog.length) → (s.isRendering = false → held = []) →
    s.inputs = held.map .command ++ .event (.answer call a) :: rest →
    step s = .next { s with inputs := held.map .command ++ rest }

/-- R141: directly after a reset only `ENCODE`, `READ_REG` and `INIT` can succeed, the other commands fail with
`NOT_CONFIGURED`; and each of the three can succeed, `READ_REG` with the values of R118. -/
def Obligations.OnlyThreeCommandsSucceedAfterReset : Prop :=
  (∀ (s : State) (i : Instr), (∃ v, i = .encode v) ∨ (∃ n, i = .readReg n) ∨ (∃ p w r, i = .init p w r) ∨
    exec i (hardwareReset s) =
      .next { hardwareReset s with responses := s.responses ++ [⟨.notConfigured, 0⟩] }) ∧
  (∀ (s : State) (v : Byte), ∃ t d, exec (.encode v) (hardwareReset s) = .next t ∧
    t.responses = s.responses ++ [⟨.ok, d⟩]) ∧
  (∀ (s : State) (n : BitVec 8), n.toNat ≤ 8 → ∃ t d, exec (.readReg n) (hardwareReset s) = .next t ∧
    t.responses = s.responses ++ [⟨.ok, d⟩] ∧ (n.toNat ≤ 5 → d = 0) ∧ (n = 6 → d = s.build.bufCapacity) ∧
    (n = 7 → d = if s.build.strictIndex = true then 1 else 0) ∧ (n = 8 → d = 3)) ∧
  ∀ s : State, s.build.wf → ∃ t, exec (.init 1 3 0) (hardwareReset s) = .next t ∧ t.lifecycle = .idle ∧
    t.responses = s.responses ++ [⟨.ok, 0⟩]

/-- R16: the ranges of the derived sizes, in every state. -/
def Obligations.SizesNeverWrap : Prop :=
  ∀ s : State, s.pixelBytes ≤ 150994935 ∧ s.totalBytes ≤ 167772150 ∧ s.totalBytes < 2 ^ 28

/-- R36: a step changes a configuration register only by `INIT`, `RELEASE` or a reset; it changes an
addressable byte only by `SET_PIXEL` or `CLEAR`; it changes `STATE` only by `INIT`, `RENDER`, `RELEASE`, a reset, or
the answer that ends a render. -/
def Obligations.StateChangesOnlyByItsCommands : Prop :=
  ∀ s t : State, step s = .next t →
    ((t.pixelCount ≠ s.pixelCount ∨ t.symbolWidth ≠ s.symbolWidth ∨ t.resetBytes ≠ s.resetBytes) →
      (∃ p w r, s.accepts (.init p w r)) ∨ s.accepts .release ∨ s.takes .reset) ∧
    (∀ a x y, s.fbByte a = some x → t.fbByte a = some y → x ≠ y →
      (∃ i r g b, s.accepts (.setPixel i r g b)) ∨ s.accepts .clear) ∧
    (t.lifecycle ≠ s.lifecycle →
      (∃ p w r, s.accepts (.init p w r)) ∨ s.accepts .render ∨ s.accepts .release ∨ s.takes .reset ∨
        (s.isRendering = true ∧ ∃ call a, s.takes (.answer call a)))

/-- R24 to R26, R36: no step changes a constant register. -/
def Obligations.ConstantsNeverChange : Prop := ∀ s t : State, step s = .next t → t.build = s.build

/-- A step takes exactly one thing the outside does and leaves the others as they are, in order, or waits and changes
nothing where there is none. While no render is in progress it takes the first; while one is, the first event, past the
commands the port holds, which stay (R144). R50 says that commands are performed one at a time; that the outside is a
list of which a step takes one element is the model's choice (entry 4), and so are the step that waits (entry 8) and
that the held commands stay also where the event is a reset (entry 6). -/
def Obligations.EveryStepTakesOneInput : Prop :=
  ∀ s t : State, step s = .next t →
    (s.isRendering = false → (s.inputs = [] ∧ t = s) ∨ ∃ x, s.inputs = x :: t.inputs) ∧
    (s.isRendering = true → ∃ (held : List CmdWord) (e : Event) (post : List Input),
      s.inputs = held.map .command ++ .event e :: post ∧ t.inputs = held.map .command ++ post)

/-- The reset state meets the model's invariant, for every build whose capacity R9 allows. The invariant's clause that
the storage of an unconfigured block is the empty list is the model's representation (entry 10): R27 and R37 leave the
contents there unspecified. `State.reset` is the model's choice of one build, at power-up (entries 2 and 19). -/
def Obligations.TheResetStateMeetsTheInvariant : Prop :=
  (∀ b : Config.Build, b.wf → (State.powerOn b).Inv) ∧ State.reset.Inv

/-- R9, R19 to R23, R32, R37, R43, R45: every step keeps the invariant of the block (Safety.lean): the registers in
their ranges, the reset region zero, every channel slot the zero fill or an encoding, and the write in flight equal to
the buffer. Three clauses are the model's representation and no rule's (entry 10): the storage is in its canonical form,
it is empty while the block is unconfigured (`Vacant.storage`; R37 and R99 leave it unspecified), and beyond
`TOTAL_BYTES` it reads 0 (in `Allocated.resetRegion`; R86 gives no content there). -/
def Obligations.EveryStepKeepsTheInvariant : Prop := ∀ s t : State, s.Inv → step s = .next t → t.Inv
end

