-- ==== Sys2Proof/Laws/Memory.lean ====
section
/-! SUPPORT. The frame buffer's storage: reads after writes, the canonical form, and that two canonical memories that
read alike are equal. -/

namespace Sys2Proof.Machine

@[simp] theorem bytesPerPixel_eq : Config.bytesPerPixel = 9 := rfl
@[simp] theorem unlisted_eq : Memory.unlisted = 0 := rfl
@[simp] theorem read_nil (a : Nat) : Memory.read [] a = 0 := rfl

theorem read_cons (k : Nat) (x : Byte) (m : Memory) (a : Nat) :
    Memory.read ((k, x) :: m) a = if k = a then x else Memory.read m a := rfl

theorem wf_cons {c : Host.Cell} {m : Memory} :
    Memory.wf (c :: m) ↔ (∀ d ∈ m, c.1 < d.1) ∧ c.2 ≠ 0 ∧ Memory.wf m := by
  simp only [Memory.wf, List.pairwise_cons, List.forall_mem_cons, unlisted_eq]; tauto

@[simp] theorem wf_nil : Memory.wf [] := by simp [Memory.wf]

/-- Below every listed address a memory reads as unlisted. -/
theorem read_of_forall_lt {m : Memory} {a : Nat} (h : ∀ d ∈ m, a < d.1) : Memory.read m a = 0 := by
  induction m with
  | nil => rfl
  | cons c m ih =>
    have hc := h c (by simp)
    rw [read_cons, if_neg (by omega)]
    exact ih fun d hd => h d (by simp [hd])

theorem read_put {m : Memory} {a : Nat} (b : Byte) (h : ∀ d ∈ m, a < d.1) (x : Nat) :
    Memory.read (Memory.put a b m) x = if x = a then b else Memory.read m x := by
  unfold Memory.put
  split
  · split
    · subst_vars; simpa using read_of_forall_lt h
    · rfl
  · rw [read_cons]; simp only [eq_comm]

theorem read_write {m : Memory} (h : Memory.wf m) (a : Nat) (b : Byte) (x : Nat) :
    Memory.read (Memory.write m a b) x = if x = a then b else Memory.read m x := by
  induction m with
  | nil => exact read_put b (by simp) x
  | cons c m ih =>
    obtain ⟨k, y⟩ := c
    obtain ⟨hlt, hy, hm⟩ := wf_cons.1 h
    rw [Memory.write]
    split
    · rename_i hak
      exact read_put b (by simp only [List.forall_mem_cons]; exact ⟨hak, fun d hd => hak.trans (hlt d hd)⟩) x
    · split
      · subst_vars
        rw [read_put b hlt, read_cons]
        split_ifs <;> first | rfl | omega
      · rw [read_cons, read_cons, ih hm]
        split_ifs <;> first | rfl | omega

theorem mem_put {m : Memory} {a : Nat} {b : Byte} {d : Host.Cell} (h : d ∈ Memory.put a b m) : d.1 = a ∨ d ∈ m := by
  unfold Memory.put at h
  split at h
  · exact .inr h
  · rcases List.mem_cons.1 h with rfl | h
    · exact .inl rfl
    · exact .inr h

theorem mem_write {m : Memory} {a : Nat} {b : Byte} {d : Host.Cell} (h : d ∈ Memory.write m a b) :
    d.1 = a ∨ ∃ c ∈ m, d.1 = c.1 := by
  induction m with
  | nil => exact (mem_put h).imp id (by simp)
  | cons c m ih =>
    obtain ⟨k, y⟩ := c
    rw [Memory.write] at h
    split at h
    · exact (mem_put h).imp id fun hd => ⟨d, hd, rfl⟩
    · split at h
      · exact (mem_put h).imp id fun hd => ⟨d, by simp [hd], rfl⟩
      · rcases List.mem_cons.1 h with rfl | h
        · exact .inr ⟨(k, y), by simp, rfl⟩
        · exact (ih h).imp id fun ⟨c, hc, e⟩ => ⟨c, by simp [hc], e⟩

theorem wf_put {m : Memory} {a : Nat} {b : Byte} (hm : Memory.wf m) (h : ∀ d ∈ m, a < d.1) :
    Memory.wf (Memory.put a b m) := by
  unfold Memory.put
  split
  · exact hm
  · rename_i hb; exact wf_cons.2 ⟨h, by simpa using hb, hm⟩

theorem wf_write {m : Memory} (h : Memory.wf m) (a : Nat) (b : Byte) : Memory.wf (Memory.write m a b) := by
  induction m with
  | nil => exact wf_put wf_nil (by simp)
  | cons c m ih =>
    obtain ⟨k, y⟩ := c
    obtain ⟨hlt, hy, hm⟩ := wf_cons.1 h
    rw [Memory.write]
    split
    · rename_i hak
      exact wf_put h (by simp only [List.forall_mem_cons]; exact ⟨hak, fun d hd => hak.trans (hlt d hd)⟩)
    · split
      · subst_vars; exact wf_put hm hlt
      · refine wf_cons.2 ⟨fun d hd => ?_, hy, ih hm⟩
        rcases mem_write hd with h' | ⟨c, hc, h'⟩
        · dsimp only; omega
        · have := hlt c hc; dsimp only at *; omega

/-- Two canonical memories that read alike are the same list. -/
theorem memory_ext {m m' : Memory} (h : Memory.wf m) (h' : Memory.wf m')
    (e : ∀ a, Memory.read m a = Memory.read m' a) : m = m' := by
  induction m generalizing m' with
  | nil =>
    cases m' with
    | nil => rfl
    | cons c m' =>
      obtain ⟨k, x⟩ := c
      obtain ⟨_, hy, _⟩ := wf_cons.1 h'
      exact absurd (by simpa [read_cons] using (e k).symm) hy
  | cons c m ih =>
    obtain ⟨k, x⟩ := c
    obtain ⟨hlt, hy, hm⟩ := wf_cons.1 h
    cases m' with
    | nil => exact absurd (by simpa [read_cons] using e k) hy
    | cons c' m' =>
      obtain ⟨hlt', hy', hm'⟩ := wf_cons.1 h'
      obtain ⟨k', x'⟩ := c'
      dsimp only at hlt hlt' hy hy'
      have hk : k = k' := by
        rcases Nat.lt_trichotomy k k' with hl | hl | hl
        · have h0 := read_of_forall_lt (m := (k', x') :: m') (a := k)
            (by simp only [List.forall_mem_cons]; exact ⟨hl, fun d hd => hl.trans (hlt' d hd)⟩)
          have := e k
          rw [h0, read_cons, if_pos rfl] at this
          exact absurd this hy
        · exact hl
        · have h0 := read_of_forall_lt (m := (k, x) :: m) (a := k')
            (by simp only [List.forall_mem_cons]; exact ⟨hl, fun d hd => hl.trans (hlt d hd)⟩)
          have := e k'
          rw [h0, read_cons, if_pos rfl] at this
          exact absurd this.symm hy'
      subst hk
      have hx : x = x' := by simpa [read_cons] using e k
      subst hx
      congr 1
      refine ih hm hm' fun a => ?_
      by_cases ha : k = a
      · subst ha; rw [read_of_forall_lt hlt, read_of_forall_lt hlt']
      · simpa [read_cons, ha] using e a

theorem wf_writeBytes {m : Memory} (h : Memory.wf m) (a : Nat) (bs : List Byte) :
    Memory.wf (Memory.writeBytes m a bs) := by
  induction bs generalizing m a with
  | nil => exact h
  | cons b bs ih => exact ih (wf_write h a b) (a + 1)

/-- Storing bytes stores exactly them. -/
theorem read_writeBytes {m : Memory} (h : Memory.wf m) (a : Nat) (bs : List Byte) (x : Nat) :
    Memory.read (Memory.writeBytes m a bs) x =
      if a ≤ x ∧ x < a + bs.length then bs.getD (x - a) 0 else Memory.read m x := by
  induction bs generalizing m a with
  | nil => rw [Memory.writeBytes, if_neg (by simp)]
  | cons b bs ih =>
    rw [Memory.writeBytes, ih (wf_write h a b), read_write h]
    simp only [List.length_cons]
    by_cases h1 : x = a
    · subst h1; simp
    · by_cases h2 : a ≤ x ∧ x < a + (bs.length + 1)
      · rw [if_pos (by omega), if_pos h2, show x - a = (x - (a + 1)) + 1 by omega, List.getD_cons_succ]
      · rw [if_neg (by omega), if_neg h1, if_neg h2]

@[simp] theorem length_bytesOf (n : Nat) (v : BitVec (8 * n)) : (bytesOf n v).length = n := by simp [bytesOf]

@[simp] theorem length_readBytes (m : Memory) (a n : Nat) : (Memory.readBytes m a n).length = n := by
  simp [Memory.readBytes]

theorem readBytes_congr {m m' : Memory} {a n : Nat}
    (h : ∀ x, a ≤ x → x < a + n → Memory.read m x = Memory.read m' x) :
    Memory.readBytes m a n = Memory.readBytes m' a n := by
  refine List.map_congr_left fun k hk => h _ ?_ ?_ <;> simp_all

theorem memRead_congr {m m' : Memory} {a n : Nat}
    (h : ∀ x, a ≤ x → x < a + n → Memory.read m x = Memory.read m' x) : memRead m a n = memRead m' a n := by
  rw [memRead, memRead, readBytes_congr h]

theorem wf_memWrite {m : Memory} (h : Memory.wf m) (a n : Nat) (v : BitVec (8 * n)) :
    Memory.wf (memWrite m a n v) := wf_writeBytes h a _

/-- `MemWrite` changes no byte outside its range. -/
theorem read_memWrite_of_outside {m : Memory} (h : Memory.wf m) {a n : Nat} (v : BitVec (8 * n)) {x : Nat}
    (hx : x < a ∨ a + n ≤ x) : Memory.read (memWrite m a n v) x = Memory.read m x := by
  rw [memWrite, read_writeBytes h, if_neg (by simp; omega)]

/-- The bytes `MemWrite` stores are those of the value, most significant first (R40). -/
theorem readBytes_memWrite {m : Memory} (h : Memory.wf m) (a n : Nat) (v : BitVec (8 * n)) :
    Memory.readBytes (memWrite m a n v) a n = bytesOf n v := by
  refine List.ext_getElem (by simp) fun k hk hk' => ?_
  simp only [length_readBytes] at hk
  simp only [Memory.readBytes, List.getElem_map, List.getElem_range, memWrite, read_writeBytes h, length_bytesOf]
  rw [if_pos (by omega), show a + k - a = k by omega, List.getD_eq_getElem _ _ (by simpa using hk)]

theorem foldl_bytes_lt (bs : List Byte) (acc : Nat) :
    bs.foldl (fun acc b => 256 * acc + b.toNat) acc < (acc + 1) * 256 ^ bs.length := by
  induction bs generalizing acc with
  | nil => simp
  | cons b bs ih =>
    refine (ih _).trans_le ?_
    rw [List.length_cons, pow_succ, mul_comm (256 ^ _), ← mul_assoc]
    exact Nat.mul_le_mul_right _ (by have := b.isLt; dsimp only; omega)

/-- `MemRead` is the inverse of taking a value's bytes (R40). -/
theorem valueOf_bytesOf (n : Nat) (v : BitVec (8 * n)) : valueOf n (bytesOf n v) = v := by
  have key : ∀ j, j ≤ n → ((List.range j).map fun k => v.extractLsb' (8 * (n - 1 - k)) 8).foldl
      (fun acc b => 256 * acc + b.toNat) 0 = v.toNat / 2 ^ (8 * (n - j)) := by
    intro j
    induction j with
    | zero => intro _; simpa using (Nat.div_eq_of_lt v.isLt).symm
    | succ j ih =>
      intro hj
      rw [List.range_succ, List.map_append, List.foldl_append, ih (by omega)]
      simp only [List.map_cons, List.map_nil, List.foldl_cons, List.foldl_nil, BitVec.extractLsb'_toNat,
        Nat.shiftRight_eq_div_pow]
      rw [show n - 1 - j = n - (j + 1) by omega, show 8 * (n - j) = 8 * (n - (j + 1)) + 8 by omega, pow_add,
        ← Nat.div_div_eq_div_mul]
      have := Nat.div_add_mod (v.toNat / 2 ^ (8 * (n - (j + 1)))) 256
      simpa using this
  have := key n le_rfl
  simp only [Nat.sub_self, Nat.mul_zero, pow_zero, Nat.div_one] at this
  rw [valueOf, bytesOf, this, BitVec.ofNat_toNat, BitVec.setWidth_eq]

/-- A read after a write of the same range gives the value written (R15, R40). -/
theorem memRead_memWrite {m : Memory} (h : Memory.wf m) (a n : Nat) (v : BitVec (8 * n)) :
    memRead (memWrite m a n v) a n = v := by
  rw [memRead, readBytes_memWrite h, valueOf_bytesOf]

/-- A read is not touched by a write of a range apart from it. -/
theorem memRead_memWrite_of_disjoint {m : Memory} (h : Memory.wf m) {a n a' n' : Nat} (v : BitVec (8 * n))
    (hd : a' + n' ≤ a ∨ a + n ≤ a') : memRead (memWrite m a n v) a' n' = memRead m a' n' :=
  memRead_congr fun _ h1 h2 => read_memWrite_of_outside h v (by omega)

theorem read_filter (m : Memory) (p : Nat → Bool) (x : Nat) :
    Memory.read (m.filter fun c => p c.1) x = if p x then Memory.read m x else 0 := by
  induction m with
  | nil => simp
  | cons c m ih =>
    obtain ⟨k, y⟩ := c
    rw [List.filter_cons]
    by_cases hk : k = x
    · subst hk
      by_cases hp : p k <;> simp [hp, read_cons, ih]
    · by_cases hp : p k <;> simp [hp, read_cons, ih, hk]

/-- The zero fill leaves 0x00 below `total` and every other byte as it was (R86). -/
theorem read_zeroFill (m : Memory) (total x : Nat) :
    Memory.read (Memory.zeroFill m total) x = if x < total then 0 else Memory.read m x := by
  rw [Memory.zeroFill, read_filter m (fun k => decide (total ≤ k))]
  by_cases hx : x < total
  · simp [hx, Nat.not_le.2 hx]
  · simp [hx, Nat.not_lt.1 hx]

theorem wf_zeroFill {m : Memory} (h : Memory.wf m) (total : Nat) : Memory.wf (Memory.zeroFill m total) :=
  ⟨h.1.filter _, fun c hc => h.2 c (List.mem_filter.1 hc).1⟩

theorem wf_writePixel {m : Memory} (h : Memory.wf m) (i : Nat) (r g b : Byte) : Memory.wf (writePixel m i r g b) :=
  wf_memWrite (wf_memWrite (wf_memWrite h _ _ _) _ _ _) _ _ _

/-- The window law for the shared pixel write (R91). -/
theorem read_writePixel_of_outside {m : Memory} (h : Memory.wf m) {i : Nat} (r g b : Byte) {x : Nat}
    (hx : x < 9 * i ∨ 9 * i + 9 ≤ x) : Memory.read (writePixel m i r g b) x = Memory.read m x := by
  have h1 := wf_memWrite h (pixelBase i) 3 (enc g)
  have h2 := wf_memWrite h1 (pixelBase i + 3) 3 (enc r)
  have hb : pixelBase i = 9 * i := rfl
  rw [writePixel, read_memWrite_of_outside h2 _ (by omega), read_memWrite_of_outside h1 _ (by omega),
    read_memWrite_of_outside h _ (by omega)]

/-- Green, red and blue stand in that order (R42, R91). -/
theorem memRead_writePixel {m : Memory} (h : Memory.wf m) (i : Nat) (r g b : Byte) :
    memRead (writePixel m i r g b) (9 * i) 3 = enc g ∧
      memRead (writePixel m i r g b) (9 * i + 3) 3 = enc r ∧
      memRead (writePixel m i r g b) (9 * i + 6) 3 = enc b := by
  have h1 := wf_memWrite h (pixelBase i) 3 (enc g)
  have h2 := wf_memWrite h1 (pixelBase i + 3) 3 (enc r)
  have hb : pixelBase i = 9 * i := rfl
  refine ⟨?_, ?_, ?_⟩
  · rw [writePixel, memRead_memWrite_of_disjoint h2 _ (by omega), memRead_memWrite_of_disjoint h1 _ (by omega), hb,
      memRead_memWrite h]
  · rw [writePixel, memRead_memWrite_of_disjoint h2 _ (by omega), hb, memRead_memWrite (hb ▸ h1)]
  · rw [writePixel, hb, memRead_memWrite (hb ▸ h2)]

theorem wf_clearPixels {m : Memory} (h : Memory.wf m) (n : Nat) : Memory.wf (clearPixels m n) := by
  induction n with
  | zero => exact h
  | succ n ih => exact wf_writePixel ih n 0 0 0

/-- `CLEAR` changes no byte past the pixels it writes (R96). -/
theorem read_clearPixels_of_outside {m : Memory} (h : Memory.wf m) {n x : Nat} (hx : 9 * n ≤ x) :
    Memory.read (clearPixels m n) x = Memory.read m x := by
  induction n with
  | zero => rfl
  | succ n ih =>
    rw [clearPixels, read_writePixel_of_outside (wf_clearPixels h n) _ _ _ (by omega), ih (by omega)]

/-- Which pixel a channel slot belongs to, and which of its three slots it is. -/
theorem channelSlot_writePixel {m : Memory} (h : Memory.wf m) (i k : Nat) (r g b : Byte) :
    channelSlot (writePixel m i r g b) k =
      if k = 3 * i then enc g else if k = 3 * i + 1 then enc r else if k = 3 * i + 2 then enc b
      else channelSlot m k := by
  obtain ⟨hg, hr, hb⟩ := memRead_writePixel h i r g b
  unfold channelSlot
  split
  · subst_vars; rw [show 3 * (3 * i) = 9 * i by omega]; exact hg
  · split
    · subst_vars; rw [show 3 * (3 * i + 1) = 9 * i + 3 by omega]; exact hr
    · split
      · subst_vars; rw [show 3 * (3 * i + 2) = 9 * i + 6 by omega]; exact hb
      · exact memRead_congr fun x h1 h2 => read_writePixel_of_outside h r g b (by omega)

/-- After `CLEAR` every channel slot holds black (R96). -/
theorem channelSlot_clearPixels {m : Memory} (h : Memory.wf m) (n k : Nat) :
    channelSlot (clearPixels m n) k = if k < 3 * n then enc 0 else channelSlot m k := by
  induction n with
  | zero => simp [clearPixels]
  | succ n ih =>
    rw [clearPixels, channelSlot_writePixel (wf_clearPixels h n), ih]
    split_ifs <;> first | rfl | omega

end Sys2Proof.Machine
end

