-- ==== Sys2Proof/Laws/State.lean ====
section
/-! SUPPORT. One lemma per field for every named update of the state, so that no proof unfolds one. -/

namespace Sys2Proof.Machine

section respond
variable (st : Status) (d : Data) (s : State)

@[simp] theorem respond_lifecycle : (respond st d s).lifecycle = s.lifecycle := rfl
@[simp] theorem respond_pixelCount : (respond st d s).pixelCount = s.pixelCount := rfl
@[simp] theorem respond_symbolWidth : (respond st d s).symbolWidth = s.symbolWidth := rfl
@[simp] theorem respond_resetBytes : (respond st d s).resetBytes = s.resetBytes := rfl
@[simp] theorem respond_build : (respond st d s).build = s.build := rfl
@[simp] theorem respond_fb : (respond st d s).fb = s.fb := rfl
@[simp] theorem respond_txlog : (respond st d s).txlog = s.txlog := rfl
@[simp] theorem respond_responses : (respond st d s).responses = s.responses ++ [⟨st, d⟩] := rfl
@[simp] theorem respond_inputs : (respond st d s).inputs = s.inputs := rfl
@[simp] theorem respond_pixelBytes : (respond st d s).pixelBytes = s.pixelBytes := rfl
@[simp] theorem respond_totalBytes : (respond st d s).totalBytes = s.totalBytes := rfl
@[simp] theorem respond_configured : (respond st d s).configured = s.configured := rfl
@[simp] theorem respond_frame : (respond st d s).frame = s.frame := rfl
@[simp] theorem raise_eq_respond : raise st d s = respond st d s := rfl

end respond

section hardwareReset
variable (s : State)

@[simp] theorem hardwareReset_lifecycle : (hardwareReset s).lifecycle = .unconfigured := rfl
@[simp] theorem hardwareReset_pixelCount : (hardwareReset s).pixelCount = 0 := rfl
@[simp] theorem hardwareReset_symbolWidth : (hardwareReset s).symbolWidth = 0 := rfl
@[simp] theorem hardwareReset_resetBytes : (hardwareReset s).resetBytes = 0 := rfl
@[simp] theorem hardwareReset_build : (hardwareReset s).build = s.build := rfl
@[simp] theorem hardwareReset_fb : (hardwareReset s).fb = [] := rfl
@[simp] theorem hardwareReset_txlog : (hardwareReset s).txlog = s.txlog ++ abortedWrite s.lifecycle := rfl
@[simp] theorem hardwareReset_responses : (hardwareReset s).responses = s.responses := rfl
@[simp] theorem hardwareReset_inputs : (hardwareReset s).inputs = s.inputs := rfl

end hardwareReset

section completeRender
variable (frame : List Byte) (a : Answer) (s : State)

@[simp] theorem completeRender_lifecycle : (completeRender frame a s).lifecycle = .idle := by cases a <;> rfl
@[simp] theorem completeRender_pixelCount : (completeRender frame a s).pixelCount = s.pixelCount := by cases a <;> rfl
@[simp] theorem completeRender_symbolWidth : (completeRender frame a s).symbolWidth = s.symbolWidth := by
  cases a <;> rfl
@[simp] theorem completeRender_resetBytes : (completeRender frame a s).resetBytes = s.resetBytes := by cases a <;> rfl
@[simp] theorem completeRender_build : (completeRender frame a s).build = s.build := by cases a <;> rfl
@[simp] theorem completeRender_fb : (completeRender frame a s).fb = s.fb := by cases a <;> rfl
@[simp] theorem completeRender_txlog :
    (completeRender frame a s).txlog = s.txlog ++ [⟨frame, outcomeOf a⟩] := by cases a <;> rfl
@[simp] theorem completeRender_inputs : (completeRender frame a s).inputs = s.inputs := by cases a <;> rfl

end completeRender

section lifecycle

@[simp] theorem configured_eq_false_iff (s : State) : s.configured = false ↔ s.lifecycle = .unconfigured := by
  unfold State.configured; split <;> simp_all

@[simp] theorem configured_eq_true_iff (s : State) : s.configured = true ↔ s.lifecycle ≠ .unconfigured := by
  unfold State.configured; split <;> simp_all

@[simp] theorem isRendering_eq_true_iff (s : State) :
    s.isRendering = true ↔ ∃ frame, s.lifecycle = .rendering frame := by
  unfold State.isRendering; split <;> simp_all

@[simp] theorem isRendering_eq_false_iff (s : State) :
    s.isRendering = false ↔ ∀ frame, s.lifecycle ≠ .rendering frame := by
  unfold State.isRendering; split <;> simp_all

theorem addressable_iff (s : State) (a : Nat) :
    s.addressable a = true ↔ s.lifecycle ≠ .unconfigured ∧ a < s.totalBytes := by
  rw [State.addressable, Bool.and_eq_true, configured_eq_true_iff, decide_eq_true_eq]

/-- An addressable cell has the stored byte (R27). -/
theorem fbByte_of_addressable {s : State} {a : Nat} (hl : s.lifecycle ≠ .unconfigured) (ha : a < s.totalBytes) :
    s.fbByte a = some (Memory.read s.fb a) := if_pos ((addressable_iff s a).2 ⟨hl, ha⟩)

/-- Exactly the cells that are not addressable have no value (R27, R38). -/
theorem fbByte_eq_none_iff (s : State) (a : Nat) :
    s.fbByte a = none ↔ s.lifecycle = .unconfigured ∨ s.totalBytes ≤ a := by
  rw [State.fbByte, ite_eq_right_iff, addressable_iff]
  simp only [reduceCtorEq, imp_false, not_and_or, ne_eq, not_not, not_lt]

end lifecycle

end Sys2Proof.Machine
end

