-- ==== Sys2Proof/Laws/Exec.lean ====
section
/-! SUPPORT. What each command can do, said once: if its meaning answers a next state, which one. -/

namespace Sys2Proof.Machine

theorem initFails_eq_true_iff (p : Count) (w : BitVec 8) (r : Count) (s : State) :
    initFails p w r s = true ↔
      s.lifecycle ≠ .unconfigured ∨ p = 0 ∨ w.toNat ≠ 3 ∨ s.build.bufCapacity.toNat < 9 * p.toNat + r.toNat := by
  have h3 : Config.symbolWidth = 3 := rfl
  have ht : initTotal p r = 9 * p.toNat + r.toNat := rfl
  rw [← ht, ← h3]
  simp [initFails, or_assoc]

theorem initFails_eq_false_iff (p : Count) (w : BitVec 8) (r : Count) (s : State) :
    initFails p w r s = false ↔
      s.lifecycle = .unconfigured ∧ p ≠ 0 ∧ w.toNat = 3 ∧ 9 * p.toNat + r.toNat ≤ s.build.bufCapacity.toNat := by
  rw [← Bool.not_eq_true, initFails_eq_true_iff]
  push Not
  rfl

/-- `INIT` fails with no effect, or configures the block. -/
theorem execInit_cases {p : Count} {w : BitVec 8} {r : Count} {s t : State} (h : execInit p w r s = .next t) :
    (initFails p w r s = true ∧ t = respond .configError 0 s) ∨
      (initFails p w r s = false ∧
        t = respond .ok 0 { s with pixelCount := p, symbolWidth := w, resetBytes := r,
                                   fb := Memory.zeroFill s.fb (initTotal p r), lifecycle := .idle }) := by
  unfold execInit at h
  split at h <;> rename_i hf <;> cases h
  · exact .inl ⟨hf, rfl⟩
  · exact .inr ⟨by simpa using hf, rfl⟩

/-- `SET_PIXEL` fails with no effect, is ignored, or writes its pixel. -/
theorem execSetPixel_cases {index : Count} {r g b : Byte} {s t : State} (h : execSetPixel index r g b s = .next t) :
    (s.lifecycle = .unconfigured ∧ t = respond .notConfigured 0 s) ∨
      (s.lifecycle ≠ .unconfigured ∧ s.pixelCount.toNat ≤ index.toNat ∧
        t = respond (if s.build.strictIndex then .indexOutOfRange else .ok) 0 s) ∨
      (s.lifecycle ≠ .unconfigured ∧ index.toNat < s.pixelCount.toNat ∧
        t = respond .ok 0 { s with fb := writePixel s.fb index.toNat r g b }) := by
  unfold execSetPixel State.indexInRange at h
  split at h
  · rename_i hc
    rw [configured_eq_true_iff] at hc
    split at h
    · rename_i hi
      cases h; exact .inr (.inr ⟨hc, by simpa using hi, rfl⟩)
    · rename_i hi
      refine .inr (.inl ⟨hc, by simpa using hi, ?_⟩)
      split at h <;> cases h <;> simp_all
  · rename_i hc
    cases h; exact .inl ⟨by simpa using hc, rfl⟩

/-- `CLEAR` fails with no effect, or writes every pixel. -/
theorem execClear_cases {s t : State} (h : execClear s = .next t) :
    (s.lifecycle = .unconfigured ∧ t = respond .notConfigured 0 s) ∨
      (s.lifecycle ≠ .unconfigured ∧ t = respond .ok 0 { s with fb := clearPixels s.fb s.pixelCount.toNat }) := by
  unfold execClear at h
  split at h <;> rename_i hc <;> cases h
  · exact .inr ⟨by simpa using hc, rfl⟩
  · exact .inl ⟨by simpa using hc, rfl⟩

/-- `RELEASE` fails with no effect, or frees the buffer. -/
theorem execRelease_cases {s t : State} (h : execRelease s = .next t) :
    (s.lifecycle = .unconfigured ∧ t = respond .notConfigured 0 s) ∨
      (s.lifecycle ≠ .unconfigured ∧
        t = respond .ok 0
          { s with pixelCount := 0, symbolWidth := 0, resetBytes := 0, fb := [], lifecycle := .unconfigured }) := by
  unfold execRelease at h
  split at h <;> rename_i hc <;> cases h
  · exact .inr ⟨by simpa using hc, rfl⟩
  · exact .inl ⟨by simpa using hc, rfl⟩

/-- `RENDER` fails with no effect, or starts its write. -/
theorem execRender_cases {s t : State} (h : execRender s = .next t) :
    (s.lifecycle = .unconfigured ∧ t = respond .notConfigured 0 s) ∨
      (s.lifecycle ≠ .unconfigured ∧ t = { s with lifecycle := .rendering s.frame }) := by
  unfold execRender at h
  split at h <;> rename_i hc <;> cases h
  · exact .inr ⟨by simpa using hc, rfl⟩
  · exact .inl ⟨by simpa using hc, rfl⟩

/-- `READ_REG` answers the register's value, or fails; nothing changes. -/
theorem execReadReg_cases {reg : BitVec 8} {s t : State} (h : execReadReg reg s = .next t) :
    (∃ r, regOfNumber reg = some r ∧ t = respond .ok (readRegister s r) s) ∨
      (regOfNumber reg = none ∧ t = respond .badAddress 0 s) := by
  unfold execReadReg at h
  split at h <;> cases h
  · exact .inl ⟨_, ‹_›, rfl⟩
  · exact .inr ⟨‹_›, rfl⟩

/-- `READ_BYTE` answers the byte, or fails; nothing changes. -/
theorem execReadByte_cases {addr : BitVec 32} {s t : State} (h : execReadByte addr s = .next t) :
    (s.lifecycle = .unconfigured ∧ t = respond .notConfigured 0 s) ∨
      (s.lifecycle ≠ .unconfigured ∧ s.totalBytes ≤ addr.toNat ∧ t = respond .badAddress 0 s) ∨
      (s.lifecycle ≠ .unconfigured ∧ addr.toNat < s.totalBytes ∧
        t = respond .ok ((memRead s.fb addr.toNat 1).setWidth 32) s) := by
  unfold execReadByte at h
  split at h
  · rename_i hc
    rw [configured_eq_true_iff] at hc
    split at h <;> cases h
    · exact .inr (.inr ⟨hc, ‹_›, rfl⟩)
    · exact .inr (.inl ⟨hc, Nat.not_lt.1 ‹_›, rfl⟩)
  · rename_i hc
    cases h; exact .inl ⟨by simpa using hc, rfl⟩

/-- No command changes the build, the log of the transport or the inputs, and each adds at most one response. -/
theorem exec_keeps {i : Instr} {s t : State} (h : exec i s = .next t) :
    t.build = s.build ∧ t.txlog = s.txlog ∧ t.inputs = s.inputs ∧
      (t.responses = s.responses ∨ ∃ r, t.responses = s.responses ++ [r]) := by
  cases i with
  | encode v => cases h; simp
  | init p w r => obtain ⟨-, rfl⟩ | ⟨-, rfl⟩ := execInit_cases h <;> simp
  | setPixel i r g b => obtain ⟨-, rfl⟩ | ⟨-, -, rfl⟩ | ⟨-, -, rfl⟩ := execSetPixel_cases h <;> simp
  | clear => obtain ⟨-, rfl⟩ | ⟨-, rfl⟩ := execClear_cases h <;> simp
  | render => obtain ⟨-, rfl⟩ | ⟨-, rfl⟩ := execRender_cases h <;> simp
  | release => obtain ⟨-, rfl⟩ | ⟨-, rfl⟩ := execRelease_cases h <;> simp
  | readReg r => obtain ⟨_, -, rfl⟩ | ⟨-, rfl⟩ := execReadReg_cases h <;> simp
  | readByte a => obtain ⟨-, rfl⟩ | ⟨-, -, rfl⟩ | ⟨-, -, rfl⟩ := execReadByte_cases h <;> simp

end Sys2Proof.Machine
end

