-- ==== Sys2Proof/Laws/Invariant.lean ====
section
/-! SUPPORT. What each write of the frame buffer does to the facts of an allocated buffer (Safety.lean). -/

namespace Sys2Proof.Machine

/-- A vacant block that `INIT` configures has an allocated buffer. -/
theorem State.Vacant.allocate {s : State} (h : s.Vacant) {p : Count} {w : BitVec 8} {r : Count}
    (hf : initFails p w r s = false) (rs : List Response) :
    State.Allocated { s with pixelCount := p, symbolWidth := w, resetBytes := r,
                             fb := Memory.zeroFill s.fb (initTotal p r), lifecycle := .idle, responses := rs } := by
  obtain ⟨-, hp, hw, hc⟩ := (initFails_eq_false_iff p w r s).1 hf
  have hr : ∀ a, Memory.read (Memory.zeroFill s.fb (initTotal p r)) a = 0 := fun a => by
    rw [read_zeroFill, h.storage]; simp
  refine ⟨hp, hw, hc, fun a _ => hr a, fun k _ => .inl ?_⟩
  rw [channelSlot, memRead_congr (m' := []) fun x _ _ => by rw [hr, read_nil]]
  rfl

/-- Writing one pixel of an allocated buffer keeps its facts. -/
theorem State.Allocated.setPixel {s : State} (h : s.Allocated) (hm : Memory.wf s.fb) {i : Nat}
    (hi : i < s.pixelCount.toNat) (r g b : Byte) : State.Allocated { s with fb := writePixel s.fb i r g b } := by
  refine ⟨h.pixelCount, h.symbolWidth, h.capacity, fun a ha => ?_, fun k hk => ?_⟩
  · have hp : s.pixelBytes = 9 * s.pixelCount.toNat := rfl
    have ha' : s.pixelBytes ≤ a := ha
    exact (read_writePixel_of_outside hm r g b (by omega)).trans (h.resetRegion a ha')
  · show slotContentOk (channelSlot (writePixel s.fb i r g b) k)
    rw [channelSlot_writePixel hm]
    split_ifs
    · exact .inr ⟨g, rfl⟩
    · exact .inr ⟨r, rfl⟩
    · exact .inr ⟨b, rfl⟩
    · exact h.pixelRegion k hk

/-- Clearing an allocated buffer keeps its facts. -/
theorem State.Allocated.clear {s : State} (h : s.Allocated) (hm : Memory.wf s.fb) :
    State.Allocated { s with fb := clearPixels s.fb s.pixelCount.toNat } := by
  refine ⟨h.pixelCount, h.symbolWidth, h.capacity, fun a ha => ?_, fun k hk => ?_⟩
  · exact (read_clearPixels_of_outside hm ha).trans (h.resetRegion a ha)
  · show slotContentOk (channelSlot (clearPixels s.fb s.pixelCount.toNat) k)
    rw [channelSlot_clearPixels hm, if_pos hk]
    exact .inr ⟨0, rfl⟩

end Sys2Proof.Machine
end

