-- ==== Sys2Proof/Laws/PerInstr.lean ====
section
/-! SUPPORT. Facts made per command. `EncodesInRow`: the word of a command lies in the row of its own mnemonic, that is,
it carries that row's opcode and all its reserved bits are 0, whatever the operands (R57, R58, R66). -/

namespace Sys2Proof.Laws.EncodesInRow

/-- The encoder's word matches the row of R66 that bears the command's mnemonic. -/
def Statement (i : Instr) : Prop := Sys2Proof.encode i &&& i.opcode.mask = i.opcode.pattern

theorem keep8 (x : BitVec 8) : x &&& 0xFF#8 = x := BitVec.and_allOnes

theorem formatV_mask (op v : BitVec 8) :
    formatV op v &&& (0xFF#8 ++ 0xFFFFFFFFFFFF#48 ++ 0#8 : BitVec 64) = op ++ 0#48 ++ 0#8 := by
  rw [formatV, BitVec.and_append, BitVec.and_append, keep8]
  simp

theorem formatI_mask (op : BitVec 8) (p : BitVec 24) (w : BitVec 8) (r : BitVec 24) :
    formatI op p w r &&& (0xFF#8 ++ 0#24 ++ 0#8 ++ 0#24 : BitVec 64) = op ++ 0#24 ++ 0#8 ++ 0#24 := by
  rw [formatI, BitVec.and_append, BitVec.and_append, BitVec.and_append, keep8]
  simp

theorem formatP_mask (op : BitVec 8) (i : BitVec 24) (r g b : BitVec 8) :
    formatP op i r g b &&& (0xFF#8 ++ 0#24 ++ 0xFF#8 ++ 0#8 ++ 0#8 ++ 0#8 : BitVec 64) =
      op ++ 0#24 ++ 0#8 ++ 0#8 ++ 0#8 ++ 0#8 := by
  rw [formatP, BitVec.and_append, BitVec.and_append, BitVec.and_append, BitVec.and_append, BitVec.and_append, keep8, keep8]
  simp

theorem formatA_mask (op : BitVec 8) (a : BitVec 32) :
    formatA op a &&& (0xFF#8 ++ 0xFFFFFF#24 ++ 0#32 : BitVec 64) = op ++ 0#24 ++ 0#32 := by
  rw [formatA, BitVec.and_append, BitVec.and_append, keep8]
  simp

theorem encode (value : Byte) : Statement (.encode value) := formatV_mask 0x01 value

theorem init (pcount : Count) (swidth : BitVec 8) (rbytes : Count) : Statement (.init pcount swidth rbytes) :=
  formatI_mask 0x02 pcount swidth rbytes

theorem setPixel (index : Count) (red green blue : Byte) : Statement (.setPixel index red green blue) :=
  formatP_mask 0x03 index red green blue

theorem clear : Statement .clear := rfl

theorem render : Statement .render := rfl

theorem release : Statement .release := rfl

theorem readReg (reg : BitVec 8) : Statement (.readReg reg) := formatV_mask 0x07 reg

theorem readByte (addr : BitVec 32) : Statement (.readByte addr) := formatA_mask 0x08 addr

end Sys2Proof.Laws.EncodesInRow
end

