-- ==== Sys2Proof/Laws/Step.lean ====
section
/-! SUPPORT. What a step can do, said once. -/

namespace Sys2Proof.Machine

/-- The first event of the inputs stands behind the commands the port holds. -/
theorem takeEvent_eq_some_iff (l left : List Input) (e : Event) :
    takeEvent l = some (e, left) ↔
      ∃ (held : List CmdWord) (rest : List Input),
        l = held.map .command ++ .event e :: rest ∧ left = held.map .command ++ rest := by
  induction l generalizing left with
  | nil => simp [takeEvent]
  | cons x l ih =>
    cases x with
    | command w =>
      constructor
      · intro h
        rw [takeEvent] at h
        split at h
        · rename_i e' left' he
          cases h
          obtain ⟨held, rest, rfl, rfl⟩ := (ih left').1 he
          exact ⟨w :: held, rest, rfl, rfl⟩
        · cases h
      · rintro ⟨held, rest, hl, rfl⟩
        cases held with
        | nil => simp at hl
        | cons w' held =>
          simp only [List.map_cons, List.cons_append, List.cons.injEq, Input.command.injEq] at hl
          obtain ⟨rfl, rfl⟩ := hl
          rw [takeEvent, (ih _).2 ⟨held, rest, rfl, rfl⟩]
          rfl
    | event e' =>
      constructor
      · intro h; cases h; exact ⟨[], l, rfl, rfl⟩
      · rintro ⟨held, rest, hl, rfl⟩
        cases held with
        | nil => simp only [List.map_nil, List.nil_append, List.cons.injEq, Input.event.injEq] at hl
                 obtain ⟨rfl, rfl⟩ := hl; rfl
        | cons w' held => simp at hl

/-- No event among the inputs: they are all commands. -/
theorem takeEvent_eq_none_iff (l : List Input) :
    takeEvent l = none ↔ ∃ held : List CmdWord, l = held.map .command := by
  induction l with
  | nil => exact ⟨fun _ => ⟨[], rfl⟩, fun _ => rfl⟩
  | cons x l ih =>
    cases x with
    | command w =>
      rw [takeEvent]
      constructor
      · intro h
        split at h
        · cases h
        · obtain ⟨held, rfl⟩ := ih.1 ‹_›
          exact ⟨w :: held, rfl⟩
      · rintro ⟨held, hl⟩
        cases held with
        | nil => simp at hl
        | cons w' held =>
          simp only [List.map_cons, List.cons.injEq] at hl
          rw [ih.2 ⟨held, hl.2⟩]
    | event e =>
      constructor
      · intro h; cases h
      · rintro ⟨held, hl⟩; cases held <;> simp at hl

theorem step_of_rendering {s : State} {frame : List Byte} (h : s.lifecycle = .rendering frame) :
    step s = stepRendering s := by
  rw [step, stepBlock, if_pos (by simp [h])]

theorem step_of_ready {s : State} (h : s.isRendering = false) : step s = stepReady s := by
  rw [step, stepBlock, if_neg (by simp [h])]

/-- Every next state of a step is one of these: an event took effect, the block waited, a command ran, or an illegal
word was answered. -/
theorem step_cases {s t : State} (h : step s = .next t) :
    (∃ e left, s.takes e ∧ t = onEvent e { s with inputs := left } ∧
        ((s.isRendering = true ∧ takeEvent s.inputs = some (e, left)) ∨
          (s.isRendering = false ∧ s.inputs = .event e :: left))) ∨
      (s.isRendering = false ∧ s.inputs = [] ∧ t = s) ∨
      (∃ w rest i, s.isRendering = false ∧ s.inputs = .command w :: rest ∧ decode w = .command i ∧
        exec i { s with inputs := rest } = .next t) ∨
      (∃ w rest why, s.isRendering = false ∧ s.inputs = .command w :: rest ∧ decode w = .illegal why ∧
        t = respond .illegalCommand 0 { s with inputs := rest }) := by
  rw [step, stepBlock] at h
  split at h
  · rename_i hr
    rw [stepRendering] at h
    split at h
    · rename_i e left he
      cases h
      exact .inl ⟨e, left, .inr ⟨hr, left, he⟩, rfl, .inl ⟨hr, he⟩⟩
    · cases h
  · rename_i hr
    simp only [Bool.not_eq_true] at hr
    rw [stepReady] at h
    split at h
    · cases h; exact .inr (.inl ⟨hr, ‹_›, rfl⟩)
    · rename_i w rest hi
      rw [accept] at h
      split at h
      · exact .inr (.inr (.inl ⟨w, rest, _, hr, hi, ‹_›, h⟩))
      · cases h; exact .inr (.inr (.inr ⟨w, rest, _, hr, hi, ‹_›, rfl⟩))
    · rename_i e rest hi
      cases h
      exact .inl ⟨e, rest, .inl ⟨hr, rest, hi⟩, rfl, .inr ⟨hr, hi⟩⟩

/-- An answer completes the write in flight, or is ignored. -/
theorem onAnswer_cases (call : Nat) (a : Answer) (s : State) :
    (∃ frame, s.lifecycle = .rendering frame ∧ call = s.txlog.length ∧
        onAnswer call a s = completeRender frame a s) ∨
      ((∀ frame, s.lifecycle = .rendering frame → call ≠ s.txlog.length) ∧ onAnswer call a s = s) := by
  unfold onAnswer
  split
  · rename_i h; exact .inr ⟨by simp [h], rfl⟩
  · rename_i h; exact .inr ⟨by simp [h], rfl⟩
  · rename_i frame h
    split
    · exact .inl ⟨frame, h, ‹_›, rfl⟩
    · exact .inr ⟨fun _ _ => ‹_›, rfl⟩

@[simp] theorem commandWords_held (held : List CmdWord) (l : List Input) :
    commandWords (held.map .command ++ l) = held ++ commandWords l := by
  induction held with
  | nil => rfl
  | cons w held ih => simp [commandWords, ih]

/-- Taking an event leaves the command words as they are (R144). -/
theorem commandWords_of_takeEvent {l left : List Input} {e : Event} (h : takeEvent l = some (e, left)) :
    commandWords left = commandWords l := by
  obtain ⟨held, rest, rfl, rfl⟩ := (takeEvent_eq_some_iff l left e).1 h
  simp [commandWords]

end Sys2Proof.Machine
end

