-- ==== Sys2Proof/Tests/Slice0.lean ====
section
/-! SUPPORT. Tests against the worked examples of spec/95_test_vectors.md (the section stands in each docstring), a
refusal for each check of WellFormed, and for each statement of Certificates/Slice0/Obligations.lean that has
hypotheses a witness that meets them. -/

namespace Sys2Proof.Tests

open Sys2Proof.Machine

/-! ### Small states -/

/-- The block after `INIT p, 3, r`, for the build of the vectors. -/
def buffered (p r : Count) : State :=
  { State.reset with lifecycle := .idle, pixelCount := p, symbolWidth := 3, resetBytes := r }

/-- The same under the strict index policy. -/
def strictly (p r : Count) : State := { buffered p r with build := { bufCapacity := 4096, strictIndex := true } }

/-- The next state, where there is one. -/
def nextOf (o : Host.Outcome State Fault Refusal) : Option State :=
  match o with
  | .next t => some t
  | .fault _ => none
  | .refused _ => none

/-- The state after a step that is offered the command word. -/
def afterWord (w : CmdWord) (s : State) : Option State := nextOf (step (presentWord w s))

/-- The responses after that step. -/
def replies (w : CmdWord) (s : State) : Option (List Response) := (afterWord w s).map (·.responses)

/-- The first `n` bytes of the frame buffer after that step. -/
def bytesAfter (w : CmdWord) (n : Nat) (s : State) : Option (List Byte) :=
  (afterWord w s).map fun t => Memory.readBytes t.fb 0 n

/-- The state's registers. -/
def registers (s : State) : Lifecycle × Count × BitVec 8 × Count :=
  (s.lifecycle, s.pixelCount, s.symbolWidth, s.resetBytes)

/-! ### WellFormed: an ill-formed term for each check (R71), and the bounds of the negative index -/

theorem test_refuses_encode_value : assemble (.encode 256) = none := by decide
theorem test_refuses_init_pixel_count : assemble (.init 0x1000000 3 0) = none := by decide
theorem test_refuses_init_symbol_width : assemble (.init 1 256 0) = none := by decide
theorem test_refuses_init_reset_byte_count : assemble (.init 1 3 0x1000000) = none := by decide
theorem test_refuses_set_pixel_index_high : assemble (.setPixel 0x1000000 0 0 0) = none := by decide
theorem test_refuses_set_pixel_index_low : assemble (.setPixel (-0x800001) 0 0 0) = none := by decide
theorem test_refuses_set_pixel_red : assemble (.setPixel 0 256 0 0) = none := by decide
theorem test_refuses_set_pixel_green : assemble (.setPixel 0 0 256 0) = none := by decide
theorem test_refuses_set_pixel_blue : assemble (.setPixel 0 0 0 256) = none := by decide
theorem test_refuses_read_reg_number : assemble (.readReg (.number 256)) = none := by decide
theorem test_refuses_read_byte_addr : assemble (.readByte 0x100000000) = none := by decide

/-- L2.4: `SET_PIXEL -1, 0xFF, 0xFF, 0xFF`; R71: the lowest index is `-2^23`. -/
theorem test_assembles_negative_index :
    assemble (.setPixel (-1) 0xFF 0xFF 0xFF) = some 0x03FFFFFF00FFFFFF ∧
      assemble (.setPixel (-0x800000) 0 0 0) = some 0x0380000000000000 := by decide

/-- R35 and R71: a register operand by its name. -/
theorem test_assembles_register_name : assemble (.readReg (.name .swSupported)) = some 0x0700000000000008 := by decide

/-! ### Decode: words written out bit by bit from the formats R60 to R65 and the opcodes of R66 -/

/-- R61: opcode 0x01, 48 zeros, VALUE. -/
theorem test_decode_encode :
    decode 0b0000000100000000000000000000000000000000000000000000000010100101 = .command (.encode 0xA5) := by decide

/-- R62: opcode 0x02, PCOUNT 3, SWIDTH 3, RBYTES 10 (L2.3). -/
theorem test_decode_init :
    decode 0b0000001000000000000000000000001100000011000000000000000000001010 = .command (.init 3 3 10) := by decide

/-- R63: opcode 0x03, INDEX 1, zero, RED 0xFF, GREEN 0x01, BLUE 0x80. -/
theorem test_decode_set_pixel :
    decode 0b0000001100000000000000000000000100000000111111110000000110000000 =
      .command (.setPixel 1 0xFF 0x01 0x80) := by decide

/-- R60: format N. -/
theorem test_decode_format_n :
    decode 0b0000010000000000000000000000000000000000000000000000000000000000 = .command .clear ∧
      decode 0b0000010100000000000000000000000000000000000000000000000000000000 = .command .render ∧
      decode 0b0000011000000000000000000000000000000000000000000000000000000000 = .command .release := by decide

/-- R64: opcode 0x07, 48 zeros, REG. -/
theorem test_decode_read_reg :
    decode 0b0000011100000000000000000000000000000000000000000000000000001001 = .command (.readReg 9) := by decide

/-- R65: opcode 0x08, 24 zeros, ADDR. -/
theorem test_decode_read_byte :
    decode 0b0000100000000000000000000000000010000000000000000000000000100101 =
      .command (.readByte 0x80000025) := by decide

/-- L2.9 (and the flipped bit of L2.3). -/
theorem test_decode_illegal :
    decode 0x0000000000000000 = .illegal .unassignedOpcode ∧ decode 0x0900000000000000 = .illegal .unassignedOpcode ∧
      decode 0xFF00000000000000 = .illegal .unassignedOpcode ∧ decode 0x820000030300000A = .illegal .unassignedOpcode ∧
      decode 0x0100000000000100 = .illegal .reservedBits ∧ decode 0x0500000000000001 = .illegal .reservedBits ∧
      decode 0x0700000000000100 = .illegal .reservedBits ∧ decode 0x0300000001010203 = .illegal .reservedBits ∧
      decode 0x0800000100000000 = .illegal .reservedBits := by decide

/-- L2.9: format I has no reserved bit. -/
theorem test_decode_init_all_ones :
    decode 0x02FFFFFFFFFFFFFF = .command (.init 0xFFFFFF 0xFF 0xFFFFFF) := by decide

/-- L2.9: an illegal word answers and does nothing else. -/
theorem test_illegal_word :
    afterWord 0x0400000000000001 (buffered 2 4) =
      some { buffered 2 4 with responses := [⟨.illegalCommand, 0⟩] } := by decide

/-! ### The encoder -/

/-- L2.1. -/
theorem test_enc_vectors :
    enc 0x00 = 0x924924 ∧ enc 0xFF = 0xDB6DB6 ∧ enc 0x01 = 0x924926 ∧ enc 0x80 = 0xD24924 ∧ enc 0x12 = 0x926934 ∧
      enc 0xA5 = 0xD349A6 ∧ enc 0x7F = 0x9B6DB6 := by decide

/-- L2.2. -/
theorem test_dec_vectors :
    dec 0xD349A6 = some 0xA5 ∧ dec 0x000000 = none ∧ dec 0xFFFFFF = none ∧ dec 0x924925 = none := by decide

/-- R79: the two named constants. -/
theorem test_named_constants : enc 0x00 = encBlack ∧ enc 0xFF = encWhite := by decide

/-! ### Codes -/

/-- R123 and R18, from their tables. -/
theorem test_codes :
    [Status.ok, .configError, .indexOutOfRange, .transmitError, .notConfigured, .illegalCommand, .badAddress].map
        statusCode = [0x0, 0x1, 0x2, 0x3, 0x4, 0x5, 0x6] ∧
      [Lifecycle.unconfigured, .idle, .rendering []].map stateCode = [0, 1, 2] := by decide

/-! ### One step of each command -/

/-- P3 step 2: `ENCODE` while `UNCONFIGURED`. -/
theorem test_encode : replies 0x01000000000000A5 State.reset = some [⟨.ok, 0x00D349A6⟩] := by decide

/-- L2.1: `ENCODE` while `IDLE`. -/
theorem test_encode_idle :
    afterWord 0x0100000000000080 (buffered 3 10) = some { buffered 3 10 with responses := [⟨.ok, 0x00D24924⟩] } := by
  decide

/-- L2.3, `BUF_CAPACITY = 64`: `INIT 7, 3, 1` is exactly at capacity. -/
theorem test_init_at_capacity :
    (afterWord 0x0200000703000001 (State.powerOn { bufCapacity := 64, strictIndex := false })).map
      (fun t => (registers t, t.totalBytes, t.responses)) = some ((.idle, 7, 3, 1), 64, [⟨.ok, 0⟩]) := by decide

/-- L2.3, `BUF_CAPACITY = 64`: `INIT 7, 3, 2` is one byte too large; `INIT 1, 4, 0` and a second `INIT` fail too. -/
theorem test_init_config_error :
    replies 0x0200000703000002 (State.powerOn { bufCapacity := 64, strictIndex := false }) = some [⟨.configError, 0⟩] ∧
      replies 0x0200000104000000 State.reset = some [⟨.configError, 0⟩] ∧
      replies 0x0200000103000000 (buffered 1 0) = some [⟨.configError, 0⟩] := by decide

/-- L2.4: `SET_PIXEL 0, 0x12, 0x34, 0x56` stores green, red, blue, and the byte after them stays. -/
theorem test_set_pixel_order :
    bytesAfter 0x0300000000123456 10 (buffered 3 10) =
      some [0x93, 0x69, 0xA4, 0x92, 0x69, 0x34, 0x9A, 0x69, 0xB4, 0x00] := by decide

/-- L2.4: the index `N` under both policies, and `SET_PIXEL` while `UNCONFIGURED`. -/
theorem test_set_pixel_out_of_range :
    afterWord 0x0300000300FFFFFF (buffered 3 10) = some { buffered 3 10 with responses := [⟨.ok, 0⟩] } ∧
      afterWord 0x0300000300FFFFFF (strictly 3 10) = some { strictly 3 10 with responses := [⟨.indexOutOfRange, 0⟩] } ∧
      replies 0x0300000000010203 State.reset = some [⟨.notConfigured, 0⟩] := by decide

/-- L2.5: `CLEAR` after `INIT 2, 3, 4`. -/
theorem test_clear :
    bytesAfter 0x0400000000000000 22 (buffered 2 4) =
      some [0x92, 0x49, 0x24, 0x92, 0x49, 0x24, 0x92, 0x49, 0x24, 0x92, 0x49, 0x24, 0x92, 0x49, 0x24, 0x92, 0x49, 0x24,
        0x00, 0x00, 0x00, 0x00] := by decide

/-- L2.6: `RENDER` after `INIT 1, 3, 2` takes eleven zero bytes and waits. -/
theorem test_render_accepted :
    afterWord 0x0500000000000000 (buffered 1 2) =
      some { buffered 1 2 with lifecycle := .rendering (List.replicate 11 0x00) } := by decide

/-- L2.6: the transport answers `Ok` to that write while the host presents a `CLEAR`, which stays held. -/
theorem test_render_answered :
    nextOf (step { buffered 1 2 with
      lifecycle := .rendering (List.replicate 11 0x00)
      inputs := [.command 0x0400000000000000, .event (.answer 0 .ok)] }) =
      some { buffered 1 2 with
        txlog := [⟨List.replicate 11 0x00, .ok⟩], responses := [⟨.ok, 0⟩], inputs := [.command 0x0400000000000000] } := by
  decide

/-- L2.7: `RELEASE` after `INIT 3, 3, 10`, and again. -/
theorem test_release :
    (afterWord 0x0600000000000000 (buffered 3 10)).map (fun t => (registers t, t.responses)) =
      some ((.unconfigured, 0, 0, 0), [⟨.ok, 0⟩]) ∧
      replies 0x0600000000000000 State.reset = some [⟨.notConfigured, 0⟩] := by decide

/-- L2.8: registers after reset, and a reserved number. -/
theorem test_read_reg :
    replies 0x0700000000000000 State.reset = some [⟨.ok, 0⟩] ∧
      replies 0x0700000000000006 State.reset = some [⟨.ok, 0x1000⟩] ∧
      replies 0x0700000000000008 State.reset = some [⟨.ok, 3⟩] ∧
      replies 0x0700000000000009 State.reset = some [⟨.badAddress, 0⟩] := by decide

/-- L2.8: the derived sizes after `INIT 3, 3, 10`. -/
theorem test_read_reg_sizes :
    replies 0x0700000000000004 (buffered 3 10) = some [⟨.ok, 27⟩] ∧
      replies 0x0700000000000005 (buffered 3 10) = some [⟨.ok, 37⟩] := by decide

/-- P1 step 3: the byte 12 after `SET_PIXEL 1, 0xFF, 0x00, 0x00`. -/
theorem test_read_byte :
    replies 0x080000000000000C { buffered 3 10 with fb := writePixel [] 1 0xFF 0x00 0x00 } =
      some [⟨.ok, 0xDB⟩] := by decide

/-- L2.8: the last tail byte, the address after it, and no buffer. -/
theorem test_read_byte_bounds :
    replies 0x0800000000000024 (buffered 3 10) = some [⟨.ok, 0⟩] ∧
      replies 0x0800000000000025 (buffered 3 10) = some [⟨.badAddress, 0⟩] ∧
      replies 0x0800000000000000 State.reset = some [⟨.notConfigured, 0⟩] := by decide

/-! ### Witnesses: what the hypotheses of each statement ask for exists -/

/-- One pixel set after `INIT 1, 3, 2`. -/
def lit : State := { buffered 1 2 with fb := writePixel [] 0 0x12 0x34 0x56 }

/-- The same block with its frame in flight. -/
def flying (is : List Input) : State := { lit with lifecycle := .rendering lit.frame, inputs := is }

/-- `lit` under the strict policy. -/
def strictLit : State := { lit with build := { bufCapacity := 4096, strictIndex := true } }

/-- The smallest block: a capacity of 9 bytes (R9), nothing configured. -/
def tiny : State := State.powerOn { bufCapacity := 9, strictIndex := true }

/-- A state in which the next input is a command word. -/
def offered (w : CmdWord) (s : State) : State := { s with inputs := [.command w] }

/-- A transport error. -/
def someError : Config.TransportError := ⟨0, .inl rfl⟩

theorem lit_allocated : lit.Allocated :=
  State.Allocated.setPixel (s := buffered 1 2)
    ⟨by decide, by decide, by decide, fun _ _ => rfl, fun _ _ => .inl rfl⟩ wf_nil (by decide) 0x12 0x34 0x56

theorem lit_build : lit.build.wf := by decide

theorem lit_canonical : Memory.wf lit.fb := by decide

theorem lit_inv (is : List Input) : State.Inv { lit with inputs := is } :=
  ⟨lit_build, lit_canonical, nofun, fun _ => ⟨lit_allocated.1, lit_allocated.2, lit_allocated.3, lit_allocated.4,
    lit_allocated.5⟩, nofun⟩

theorem flying_inv (is : List Input) : (flying is).Inv :=
  ⟨lit_build, lit_canonical, nofun, fun _ => ⟨lit_allocated.1, lit_allocated.2, lit_allocated.3, lit_allocated.4,
    lit_allocated.5⟩, fun _ h => (Lifecycle.rendering.inj h).symm⟩

theorem tiny_inv : tiny.Inv :=
  ⟨by decide, wf_nil, fun _ => ⟨rfl, rfl, rfl, rfl⟩, fun h => absurd rfl h, nofun⟩

theorem witness_DecodeTakesTheUniqueMatchingRow :
    (0x01000000000000FF : CmdWord) &&& Opcode.encode.mask = Opcode.encode.pattern ∧
      ∀ o : Opcode, (0x0100000000000100 : CmdWord) &&& o.mask ≠ o.pattern :=
  ⟨by decide, fun o => by cases o <;> decide⟩

theorem witness_NoBitOfAWordIsIgnored :
    decode 0x02FFFFFFFFFFFFFF = .command (.init 0xFFFFFF 0xFF 0xFFFFFF) ∧
      (opc 0x0100000000000100 = 0x01 ∧ field 8 48 0x0100000000000100 ≠ 0) ∧
      (opc 0x0300000080000000 = 0x03 ∧ field 24 8 0x0300000080000000 ≠ 0) ∧
      (opc 0x0600000000000001 = 0x06 ∧ field 0 56 0x0600000000000001 ≠ 0) ∧
      (opc 0x0780000000000000 = 0x07 ∧ field 8 48 0x0780000000000000 ≠ 0) ∧
      opc 0x0800000100000000 = 0x08 ∧ field 32 24 0x0800000100000000 ≠ 0 := by decide

theorem witness_IllegalWordsAnswerIllegalCommand :
    opc 0x00FFFFFFFFFFFFFF = 0 ∧ 9 ≤ (opc 0x0900000000000000).toNat ∧ 9 ≤ (opc 0xFF00000000000000).toNat ∧
      (∃ o : Opcode, o.number = opc 0x0500000000000001 ∧ (0x0500000000000001 : CmdWord) &&& o.mask ≠ o.pattern) ∧
      (offered 0 lit).isRendering = false ∧ (offered 0 lit).inputs = .command 0 :: [] ∧
      decode 0 = .illegal .unassignedOpcode :=
  ⟨by decide, by decide, by decide, ⟨.render, by decide⟩, by decide⟩

theorem witness_AssemblerNeverTruncates :
    (2 ^ 8 ≤ 256 ∧ 255 < 2 ^ 8) ∧ (2 ^ 24 ≤ 0x1000000 ∧ 0xFFFFFF < 2 ^ 24) ∧ (2 ^ 32 ≤ 0x100000000 ∧ 0xFFFFFFFF < 2 ^ 32) ∧
      ((-0x800001 : Int) < -(2 ^ 23) ∧ -(2 ^ 23) ≤ (-0x800000 : Int) ∧ (0xFFFFFF : Int) < 2 ^ 24) ∧
      1 ≤ 0x800000 ∧ 0x800000 ≤ 2 ^ 23 := by decide

theorem witness_AStepRunsTheDecodedCommand :
    (offered 0x0400000000000000 lit).isRendering = false ∧
      (offered 0x0400000000000000 lit).inputs = .command 0x0400000000000000 :: [] ∧
      decode 0x0400000000000000 = .command .clear := by decide

theorem witness_APresentedCommandRunsNext : State.reset.isRendering = false ∧ lit.isRendering = false := by decide

theorem witness_EncBitEquations : (0 < 8) ∧ (7 < 8) := by decide

theorem witness_DecInvertsEnc :
    (∃ j, j < 8 ∧ symbolAt 0x924925 j ≠ 0b100 ∧ symbolAt 0x924925 j ≠ 0b110) ∧
      (∃ j, j < 8 ∧ symbolAt 0xE24924 j ≠ 0b100 ∧ symbolAt 0xE24924 j ≠ 0b110) ∧ enc 0xFF = enc 0xFF ∧
      dec 0xDB6DB6 = some 0xFF :=
  ⟨⟨0, by decide⟩, ⟨7, by decide⟩, by decide⟩

theorem witness_BytesAndBitsAreMostSignificantFirst :
    ([0x92, 0x49] : List Byte)[15 / 8]? = some 0x49 ∧ Memory.wf lit.fb ∧ 2 < 3 := by decide

theorem witness_InitFollowsItsRule :
    (tiny.lifecycle = .unconfigured ∧ (1 : Count) ≠ 0 ∧ (3 : BitVec 8).toNat = 3 ∧
      9 * (1 : Count).toNat + (0 : Count).toNat ≤ tiny.build.bufCapacity.toNat) ∧
      lit.lifecycle ≠ .unconfigured ∧
      tiny.build.bufCapacity.toNat < 9 * (1 : Count).toNat + (1 : Count).toNat := by decide

theorem witness_ZeroFillIsTheLoopOfWrites : Memory.wf lit.fb ∧ lit.fb ≠ [] := by decide

theorem witness_SetPixelWritesItsWindowOnly :
    lit.lifecycle ≠ .unconfigured ∧ (0 : Count).toNat < lit.pixelCount.toNat ∧ Memory.wf lit.fb ∧
      (∃ t, exec (.setPixel 0 1 2 3) lit = .next t) ∧ pixelBase 0 + 9 ≤ 9 :=
  ⟨by decide, by decide, by decide, ⟨_, rfl⟩, by decide⟩

theorem witness_SetPixelOutOfRangeChangesNothing :
    (lit.lifecycle ≠ .unconfigured ∧ lit.pixelCount.toNat ≤ (1 : Count).toNat ∧ lit.build.strictIndex = false) ∧
      strictLit.lifecycle ≠ .unconfigured ∧ strictLit.pixelCount.toNat ≤ (0xFFFFFF : Count).toNat ∧
      strictLit.build.strictIndex = true := by decide

theorem witness_IndexMinusOneIsNeverValid :
    lit.lifecycle ≠ .unconfigured ∧ (buffered 0xFFFFFF 0).lifecycle ≠ .unconfigured := by decide

theorem witness_TheLastSetPixelWins :
    lit.lifecycle ≠ .unconfigured ∧ (buffered 2 4).lifecycle ≠ .unconfigured ∧
      (0 : Count).toNat < lit.pixelCount.toNat ∧ (0 : Count).toNat < (buffered 2 4).pixelCount.toNat ∧
      Memory.wf lit.fb ∧ Memory.wf (buffered 2 4).fb ∧
      (∃ t t', exec (.setPixel 0 1 2 3) lit = .next t ∧ exec (.setPixel 0 1 2 3) (buffered 2 4) = .next t') ∧
      ∃ t u v, exec (.setPixel 0 1 2 3) lit = .next t ∧ exec (.setPixel 0 4 5 6) t = .next u ∧
        exec (.setPixel 0 4 5 6) lit = .next v :=
  ⟨by decide, by decide, by decide, by decide, by decide, by decide, ⟨_, _, rfl, rfl⟩, _, _, _, rfl, rfl, rfl⟩

theorem witness_PixelOperandsAreRecoverable :
    lit.lifecycle ≠ .unconfigured ∧ (0 : Count).toNat < lit.pixelCount.toNat ∧ Memory.wf lit.fb := by decide

theorem witness_ClearWritesBlackToEverySlot :
    (lit.lifecycle ≠ .unconfigured ∧ Memory.wf lit.fb ∧ 2 < 3 * lit.pixelCount.toNat ∧ lit.pixelBytes ≤ 9) ∧
      State.reset.lifecycle = .unconfigured := by decide

theorem witness_ClearIsBlackPixelByPixel :
    (buffered 2 4).lifecycle ≠ .unconfigured ∧ Memory.wf (buffered 2 4).fb ∧
      (∀ i ∈ ([1, 0] : List Count), i.toNat < (buffered 2 4).pixelCount.toNat) ∧
      ∀ i : Count, i.toNat < (buffered 2 4).pixelCount.toNat → i ∈ ([1, 0] : List Count) := by
  refine ⟨by decide, by decide, List.forall_mem_cons.2 ⟨by decide, List.forall_mem_singleton.2 (by decide)⟩, fun i hi => ?_⟩
  have h : i.toNat < 2 := hi
  have h0 : i = 1#24 ∨ i = 0#24 := by
    rcases Nat.lt_succ_iff_lt_or_eq.1 h with h | h
    · exact .inr (BitVec.eq_of_toNat_eq (by simpa using h))
    · exact .inl (BitVec.eq_of_toNat_eq (by simpa using h))
  rcases h0 with h | h <;> simp [h]

theorem witness_ClearIsIdempotent :
    Memory.wf lit.fb ∧ ∃ t u, exec .clear lit = .next t ∧ exec .clear t = .next u := ⟨by decide, _, _, rfl, rfl⟩

theorem witness_InitAndClearDiffer :
    Memory.wf tiny.fb ∧ tiny.lifecycle = .unconfigured ∧ (1 : Count) ≠ 0 ∧
      9 * (1 : Count).toNat + (0 : Count).toNat ≤ tiny.build.bufCapacity.toNat ∧
      (∃ t u, exec (.init 1 3 0) tiny = .next t ∧ exec .clear t = .next u) ∧ 2 < 3 * (1 : Count).toNat :=
  ⟨by decide, by decide, by decide, by decide, ⟨_, _, rfl, rfl⟩, by decide⟩

theorem witness_ReleaseFreesTheBuffer :
    lit.lifecycle ≠ .unconfigured ∧ State.reset.lifecycle = .unconfigured := by decide

theorem witness_NoByteSurvivesReinitialisation :
    (lit.lifecycle ≠ .unconfigured ∧ ∃ t, exec .release lit = .next t) ∧
      (∃ s : State, s = { State.reset with fb := lit.fb } ∧ s.lifecycle = .unconfigured ∧ s.fb ≠ State.reset.fb ∧
        ∃ t t', exec (.init 1 3 2) State.reset = .next t ∧ exec (.init 1 3 2) s = .next t') :=
  ⟨⟨by decide, _, rfl⟩, _, rfl, by decide, by decide, _, _, rfl, rfl⟩

theorem witness_TheResetRegionStaysZero :
    (Memory.wf lit.fb ∧ lit.lifecycle ≠ .unconfigured ∧
      ∃ t, exec .clear lit = .next t ∧ t.lifecycle ≠ .unconfigured ∧ lit.pixelBytes ≤ 9 ∧ 10 < lit.totalBytes) ∧
      State.Inv { lit with inputs := [.command 0x0400000000000000] } ∧
      ∃ t, step { lit with inputs := [.command 0x0400000000000000] } = .next t ∧ t.lifecycle ≠ .unconfigured ∧
        t.pixelBytes ≤ 9 ∧ 10 < t.totalBytes :=
  ⟨⟨by decide, by decide, _, rfl, by decide, by decide, by decide⟩, lit_inv _, _, rfl, by decide, by decide, by decide⟩

theorem witness_RenderPutsTheWholeBufferInFlight : lit.lifecycle = .idle ∧ 10 < lit.totalBytes := by decide

theorem witness_AnAnswerCompletesTheRender :
    (∃ s : State, s.lifecycle = .idle ∧
      s.inputs = [0x0400000000000000].map .command ++ .event (.answer s.txlog.length .ok) :: []) ∧
      ∃ s : State, s.lifecycle = .idle ∧
        s.inputs = ([] : List CmdWord).map .command ++ .event (.answer s.txlog.length (.err someError)) :: [] :=
  ⟨⟨{ lit with inputs := [.command 0x0400000000000000, .event (.answer 0 .ok)] }, rfl, rfl⟩,
    { lit with inputs := [.event (.answer 0 (.err someError))] }, rfl, rfl⟩

theorem witness_OnlyASilentTransportStopsTheBlock :
    (∃ frame, (flying [.command 0]).lifecycle = .rendering frame) ∧
      ∃ held : List CmdWord, (flying [.command 0]).inputs = held.map .command := ⟨⟨_, rfl⟩, [0], rfl⟩

theorem witness_TheRenderHoldsTheCommandPort :
    ∃ s t : State, (∃ frame, s.lifecycle = .rendering frame) ∧ step s = .next t ∧ t.lifecycle = .idle ∧
      t.inputs = .command 0x0400000000000000 :: [] ∧ decode 0x0400000000000000 = .command .clear ∧
      ¬ s.takes .reset ∧
      ∃ s' t' : State, (∃ frame, s'.lifecycle = .rendering frame) ∧ step s' = .next t' ∧ t'.isRendering = true := by
  refine ⟨flying [.command 0x0400000000000000, .event (.answer 0 .ok)], _, ⟨_, rfl⟩, rfl, rfl, rfl, by decide, ?_,
    flying [.event (.answer 7 .ok)], _, ⟨_, rfl⟩, rfl, rfl⟩
  rintro (⟨h, -⟩ | ⟨-, left, h⟩)
  · exact absurd h (by decide)
  · simp [flying, takeEvent] at h

theorem witness_TheLogGrowsByEndedWritesOnly :
    ∃ t, step (flying [.event .reset]) = .next t ∧ t.txlog ≠ (flying [.event .reset]).txlog :=
  ⟨_, rfl, by decide⟩

theorem witness_EveryFrameEndsWithTheResetTail :
    (flying []).Inv ∧ (flying []).lifecycle = .rendering lit.frame := ⟨flying_inv _, rfl⟩

theorem witness_ARenderAfterInitSendsZeros :
    tiny.lifecycle = .unconfigured ∧ (1 : Count) ≠ 0 ∧
      9 * (1 : Count).toNat + (0 : Count).toNat ≤ tiny.build.bufCapacity.toNat ∧
      ∃ t u, exec (.init 1 3 0) tiny = .next t ∧ exec .render t = .next u :=
  ⟨by decide, by decide, by decide, _, _, rfl, rfl⟩

theorem witness_TwoRendersSendTheSameFrame :
    ∃ s : State, s.lifecycle = .idle ∧ (∀ i ∈ [Instr.readReg 5, .encode 1], isRead i = true) ∧
      s.inputs = [.command (encode .render), .event (.answer s.txlog.length (.err someError))] ++
        [Instr.readReg 5, .encode 1].map (fun i => .command (encode i)) ++
        [.command (encode .render), .event (.answer (s.txlog.length + 1) .ok)] :=
  ⟨{ lit with
      inputs := [.command (encode .render), .event (.answer 0 (.err someError)), .command (encode (.readReg 5)),
        .command (encode (.encode 1)), .command (encode .render), .event (.answer 1 .ok)] }, rfl, by decide, rfl⟩

theorem witness_AFailedWriteMayHaveSentAnyPrefix :
    (TxEntry.mk [0x92, 0x49] .aborted).outcome ≠ .ok ∧ (TxEntry.mk [0x92, 0x49] (.err someError)).outcome ≠ .ok ∧
      (TxEntry.mk [0x92, 0x49] (.err someError)).mayReachWire [0x92] ∧
      (TxEntry.mk [0x92, 0x49] .ok).outcome = .ok :=
  ⟨by decide, by decide, ⟨[0x49], rfl⟩, rfl⟩

theorem witness_ReadRegAnswersTheRegister :
    (0 : BitVec 8).toNat ≤ 8 ∧ (8 : BitVec 8).toNat ≤ 8 ∧ lit.isRendering = false ∧ 8 < (9 : BitVec 8).toNat ∧
      8 < (255 : BitVec 8).toNat := by decide

theorem witness_UnconfiguredRegistersReadZero :
    tiny.Inv ∧ tiny.lifecycle = .unconfigured ∧ (5 : BitVec 8).toNat ≤ 5 ∧ (8 : BitVec 8).toNat ≤ 8 :=
  ⟨tiny_inv, by decide⟩

theorem witness_ReadByteAnswersTheByte :
    lit.lifecycle ≠ .unconfigured ∧ (10 : BitVec 32).toNat < lit.totalBytes ∧
      lit.totalBytes ≤ (11 : BitVec 32).toNat ∧ State.reset.lifecycle = .unconfigured := by decide

theorem witness_ReadsDoNotDisturbOtherCommands :
    (∀ r ∈ [Instr.readByte 0, .readReg 9], isRead r = true) ∧ (∃ t, exec (.readByte 0) lit = .next t) ∧
      ∃ t, exec (.setPixel 0 1 2 3) lit = .next t := ⟨by decide, ⟨_, rfl⟩, _, rfl⟩

theorem witness_EveryCommandCompletesWithOneResponse :
    lit.lifecycle ≠ .unconfigured ∧ ¬ (Instr.clear = .render ∧ lit.lifecycle ≠ .unconfigured) ∧
      (flying [.event (.answer 0 .ok)]).isRendering = true ∧
      (flying [.event (.answer 0 .ok)]).takes (.answer (flying [.event (.answer 0 .ok)]).txlog.length .ok) :=
  ⟨by decide, by decide, rfl, .inr ⟨rfl, _, rfl⟩⟩

theorem witness_DataIsZeroButInFourCases :
    ∃ t d, step (offered 0x01000000000000A5 lit) = .next t ∧ t.responses = lit.responses ++ [⟨.ok, d⟩] ∧ d ≠ 0 :=
  ⟨_, 0x00D349A6, rfl, by decide, by decide⟩

theorem witness_EachErrorHasExactlyItsCauses :
    (∃ t, step (offered 0x0200000103000000 lit) = .next t ∧ t.responses = [⟨.configError, 0⟩]) ∧
      (∃ t, step (offered 0x0300000100FFFFFF strictLit) = .next t ∧ t.responses = [⟨.indexOutOfRange, 0⟩]) ∧
      (∃ t, step (offered 0x0500000000000000 State.reset) = .next t ∧ t.responses = [⟨.notConfigured, 0⟩]) ∧
      (∃ t, step (offered 0x0400000000000001 lit) = .next t ∧ t.responses = [⟨.illegalCommand, 0⟩]) ∧
      (∃ t, step (offered 0x080000000000000B lit) = .next t ∧ t.responses = [⟨.badAddress, 0⟩]) ∧
      ∃ t, step (offered 0x0700000000000009 State.reset) = .next t ∧ t.responses = [⟨.badAddress, 0⟩] :=
  ⟨⟨_, rfl, by decide⟩, ⟨_, rfl, by decide⟩, ⟨_, rfl, by decide⟩, ⟨_, rfl, by decide⟩, ⟨_, rfl, by decide⟩,
    _, rfl, by decide⟩

theorem witness_TransmitErrorReportsTheTransportsError :
    (flying [.event (.answer 0 (.err someError))]).isRendering = true ∧
      (flying [.event (.answer 0 (.err someError))]).takes
        (.answer (flying [.event (.answer 0 (.err someError))]).txlog.length (.err someError)) :=
  ⟨rfl, .inr ⟨rfl, _, rfl⟩⟩

theorem witness_ErrorsHaveNoOtherEffect :
    (∃ t, step (offered 0x0900000000000000 lit) = .next t ∧ t.responses = lit.responses ++ [⟨.illegalCommand, 0⟩]) ∧
      ∃ t, step (flying [.event (.answer 0 (.err someError))]) = .next t ∧
        t.responses = (flying []).responses ++ [⟨.transmitError, Config.terrCode someError⟩] :=
  ⟨⟨_, rfl, by decide⟩, _, rfl, rfl⟩

theorem witness_ResetLeavesTheResetValues :
    (State.takes { lit with inputs := [.event .reset] } .reset ∧
      State.isRendering { lit with inputs := [.event .reset] } = false) ∧
      (flying [.command 0, .event .reset]).takes .reset ∧
      (flying [.command 0, .event .reset]).lifecycle = .rendering lit.frame :=
  ⟨⟨.inl ⟨rfl, _, rfl⟩, rfl⟩, .inr ⟨rfl, _, rfl⟩, rfl⟩

theorem witness_ResetAbandonsTheWriteInFlight :
    (flying [.command 0x0400000000000000, .event .reset]).lifecycle = .rendering lit.frame ∧
      (flying [.command 0x0400000000000000, .event .reset]).inputs =
        [0x0400000000000000].map .command ++ .event .reset :: [] := ⟨rfl, rfl⟩

theorem witness_LateAnswersAreIgnored :
    ((flying [.command 0, .event (.answer 7 .ok)]).isRendering = true ∧ 7 ≠ (flying []).txlog.length ∧
      (flying [.command 0, .event (.answer 7 .ok)]).inputs = [0].map .command ++ .event (.answer 7 .ok) :: []) ∧
      State.isRendering { State.reset with inputs := [.event (.answer 0 .ok)] } = false :=
  ⟨⟨rfl, by decide, rfl⟩, rfl⟩

theorem witness_OnlyThreeCommandsSucceedAfterReset :
    (8 : BitVec 8).toNat ≤ 8 ∧ (5 : BitVec 8).toNat ≤ 5 ∧ tiny.build.wf := by decide

theorem witness_StateChangesOnlyByItsCommands :
    (∃ t, step (offered 0x0600000000000000 lit) = .next t ∧ t.pixelCount ≠ lit.pixelCount ∧
      t.lifecycle ≠ lit.lifecycle) ∧
      ∃ t x y, step (offered 0x0400000000000000 lit) = .next t ∧ lit.fbByte 0 = some x ∧ t.fbByte 0 = some y ∧ x ≠ y :=
  ⟨⟨_, rfl, by decide, by decide⟩, _, 0x93, 0x92, rfl, by decide, by decide, by decide⟩

theorem witness_ConstantsNeverChange : ∃ t, step (offered 0x0600000000000000 lit) = .next t := ⟨_, rfl⟩

theorem witness_EveryStepTakesOneInput :
    ((offered 0x0600000000000000 lit).isRendering = false ∧ ∃ t, step (offered 0x0600000000000000 lit) = .next t) ∧
      (State.reset.isRendering = false ∧ ∃ t, step State.reset = .next t) ∧
      (flying [.command 0, .event .reset, .command 1]).isRendering = true ∧
      ∃ t, step (flying [.command 0, .event .reset, .command 1]) = .next t :=
  ⟨⟨rfl, _, rfl⟩, ⟨rfl, _, rfl⟩, rfl, _, rfl⟩

theorem witness_TheResetStateMeetsTheInvariant : Config.Build.wf ⟨9, true⟩ := by decide

theorem witness_EveryStepKeepsTheInvariant :
    (State.Inv { lit with inputs := [.command 0x0400000000000000] } ∧
      ∃ t, step { lit with inputs := [.command 0x0400000000000000] } = .next t) ∧
      (flying [.event .reset]).Inv ∧ ∃ t, step (flying [.event .reset]) = .next t :=
  ⟨⟨lit_inv _, _, rfl⟩, flying_inv _, _, rfl⟩

end Sys2Proof.Tests
end

/-! SUPPORT. The derived sizes (R16, R22, R23), and the invariant of the block: what it does not speak of, that every
command and every event keep it, and so every step. -/

namespace Sys2Proof.Machine

/-- R22, with the size of a pixel written out. -/
theorem pixelBytes_eq (s : State) : s.pixelBytes = 9 * s.pixelCount.toNat := rfl

/-- R23, with the size of a pixel written out. -/
theorem totalBytes_eq (s : State) : s.totalBytes = 9 * s.pixelCount.toNat + s.resetBytes.toNat := rfl

/-- Settles O52: the 24-bit widths of `PIXEL_COUNT` and `RESET_BYTES` (R12) bound both sizes. -/
theorem sizesNeverWrap : Obligations.SizesNeverWrap := by
  intro s
  have hp : s.pixelCount.toNat < 2 ^ 24 := s.pixelCount.isLt
  have hr : s.resetBytes.toNat < 2 ^ 24 := s.resetBytes.isLt
  rw [totalBytes_eq, pixelBytes_eq]
  omega

/-! ### What the invariant does not speak of -/

section unobserved
variable {s : State} (log : List TxEntry) (rs : List Response) (is : List Input)

/-- A vacant block stays one whatever is logged, answered or presented. -/
theorem State.Vacant.with_ports (h : s.Vacant) :
    State.Vacant { s with txlog := log, responses := rs, inputs := is } :=
  ⟨h.pixelCount, h.symbolWidth, h.resetBytes, h.storage⟩

/-- An allocated buffer stays one whatever is logged, answered or presented, and whether a render is in progress. -/
theorem State.Allocated.with_ports (h : s.Allocated) (l : Lifecycle) :
    State.Allocated { s with lifecycle := l, txlog := log, responses := rs, inputs := is } :=
  ⟨h.pixelCount, h.symbolWidth, h.capacity, h.resetRegion, h.pixelRegion⟩

/-- The invariant says nothing of the log of the transport, the responses and the inputs. -/
theorem State.Inv.with_ports (h : s.Inv) : State.Inv { s with txlog := log, responses := rs, inputs := is } where
  build := h.build
  canonical := h.canonical
  vacant hl := (h.vacant hl).with_ports log rs is
  allocated hl := (h.allocated hl).with_ports log rs is s.lifecycle
  inFlight := h.inFlight

end unobserved

/-- A response keeps the invariant. -/
theorem State.Inv.with_response {s : State} (h : s.Inv) (st : Status) (d : Data) : (respond st d s).Inv :=
  h.with_ports s.txlog (s.responses ++ [Response.mk st d]) s.inputs

/-- Taking an input keeps the invariant. -/
theorem State.Inv.with_inputs {s : State} (h : s.Inv) (is : List Input) : State.Inv { s with inputs := is } :=
  h.with_ports s.txlog s.responses is

/-! ### The invariant of a vacant, an idle and a rendering block -/

theorem State.Vacant.inv {s : State} (h : s.Vacant) (hb : s.build.wf) (hl : s.lifecycle = .unconfigured) : s.Inv where
  build := hb
  canonical := h.storage ▸ wf_nil
  vacant _ := h
  allocated hc := absurd hl hc
  inFlight _ hr := by simp [hl] at hr

theorem State.Allocated.inv_of_idle {s : State} (h : s.Allocated) (hb : s.build.wf) (hm : Memory.wf s.fb)
    (hl : s.lifecycle = .idle) : s.Inv where
  build := hb
  canonical := hm
  vacant hu := by simp [hl] at hu
  allocated _ := h
  inFlight _ hr := by simp [hl] at hr

theorem State.Allocated.inv_of_rendering {s : State} (h : s.Allocated) (hb : s.build.wf) (hm : Memory.wf s.fb)
    (hl : s.lifecycle = .rendering s.frame) : s.Inv where
  build := hb
  canonical := hm
  vacant hu := by simp [hl] at hu
  allocated _ := h
  inFlight _ hr := Lifecycle.rendering.inj (hr.symm.trans hl)

/-- A block that takes commands (R144) and has a buffer is idle. -/
theorem lifecycle_eq_idle {s : State} (hr : s.isRendering = false) (hc : s.lifecycle ≠ .unconfigured) :
    s.lifecycle = .idle := by
  cases hl : s.lifecycle with
  | unconfigured => exact absurd hl hc
  | idle => rfl
  | rendering frame => exact absurd hl ((isRendering_eq_false_iff s).1 hr frame)

/-! ### Every command keeps the invariant -/

theorem execInit_keeps_inv {p : Count} {w : BitVec 8} {r : Count} {s t : State} (h : s.Inv)
    (he : execInit p w r s = .next t) : t.Inv := by
  obtain ⟨-, rfl⟩ | ⟨hf, rfl⟩ := execInit_cases he
  · exact h.with_response _ _
  · have hv : s.Vacant := h.vacant ((initFails_eq_false_iff p w r s).1 hf).1
    exact ((hv.allocate hf s.responses).inv_of_idle h.build (wf_zeroFill h.canonical _) rfl).with_response _ _

theorem execSetPixel_keeps_inv {i : Count} {r g b : Byte} {s t : State} (h : s.Inv) (hr : s.isRendering = false)
    (he : execSetPixel i r g b s = .next t) : t.Inv := by
  obtain ⟨-, rfl⟩ | ⟨-, -, rfl⟩ | ⟨hc, hi, rfl⟩ := execSetPixel_cases he
  · exact h.with_response _ _
  · exact h.with_response _ _
  · exact (((h.allocated hc).setPixel h.canonical hi r g b).inv_of_idle h.build (wf_writePixel h.canonical _ r g b)
      (lifecycle_eq_idle hr hc)).with_response _ _

theorem execClear_keeps_inv {s t : State} (h : s.Inv) (hr : s.isRendering = false)
    (he : execClear s = .next t) : t.Inv := by
  obtain ⟨-, rfl⟩ | ⟨hc, rfl⟩ := execClear_cases he
  · exact h.with_response _ _
  · exact (((h.allocated hc).clear h.canonical).inv_of_idle h.build (wf_clearPixels h.canonical _)
      (lifecycle_eq_idle hr hc)).with_response _ _

theorem execRender_keeps_inv {s t : State} (h : s.Inv) (he : execRender s = .next t) : t.Inv := by
  obtain ⟨-, rfl⟩ | ⟨hc, rfl⟩ := execRender_cases he
  · exact h.with_response _ _
  · exact ((h.allocated hc).with_ports _ _ _ _).inv_of_rendering h.build h.canonical rfl

theorem execRelease_keeps_inv {s t : State} (h : s.Inv) (he : execRelease s = .next t) : t.Inv := by
  obtain ⟨-, rfl⟩ | ⟨-, rfl⟩ := execRelease_cases he
  · exact h.with_response _ _
  · exact State.Vacant.inv ⟨rfl, rfl, rfl, rfl⟩ h.build rfl

theorem execReadReg_keeps_inv {n : BitVec 8} {s t : State} (h : s.Inv) (he : execReadReg n s = .next t) : t.Inv := by
  obtain ⟨_, -, rfl⟩ | ⟨-, rfl⟩ := execReadReg_cases he <;> exact h.with_response _ _

theorem execReadByte_keeps_inv {a : BitVec 32} {s t : State} (h : s.Inv) (he : execReadByte a s = .next t) :
    t.Inv := by
  obtain ⟨-, rfl⟩ | ⟨-, -, rfl⟩ | ⟨-, -, rfl⟩ := execReadByte_cases he <;> exact h.with_response _ _

/-- A command that the port accepts keeps the invariant. While `RENDERING`, where the port accepts none (R144; entry
14), `SET_PIXEL` and `CLEAR` would change the buffer under the write in flight. -/
theorem exec_keeps_inv {i : Instr} {s t : State} (h : s.Inv) (hr : s.isRendering = false)
    (he : exec i s = .next t) : t.Inv := by
  cases i with
  | encode v => cases he; exact h.with_response _ _
  | init p w r => exact execInit_keeps_inv h he
  | setPixel i r g b => exact execSetPixel_keeps_inv h hr he
  | clear => exact execClear_keeps_inv h hr he
  | render => exact execRender_keeps_inv h he
  | release => exact execRelease_keeps_inv h he
  | readReg n => exact execReadReg_keeps_inv h he
  | readByte a => exact execReadByte_keeps_inv h he

/-! ### Every event keeps the invariant -/

theorem hardwareReset_keeps_inv {s : State} (h : s.Inv) : (hardwareReset s).Inv :=
  State.Vacant.inv ⟨rfl, rfl, rfl, rfl⟩ h.build rfl

/-- The end of a render is idle, with one entry more in the log and a response; nothing else changes (R107 to R109). -/
theorem completeRender_eq (frame : List Byte) (a : Answer) (s : State) :
    completeRender frame a s =
      { s with lifecycle := .idle, txlog := s.txlog ++ [⟨frame, outcomeOf a⟩],
               responses := (completeRender frame a s).responses } := by
  cases a <;> rfl

theorem completeRender_keeps_inv {frame : List Byte} {s : State} (h : s.Inv) (hc : s.lifecycle ≠ .unconfigured)
    (a : Answer) : (completeRender frame a s).Inv := by
  rw [completeRender_eq]
  exact ((h.allocated hc).with_ports _ _ _ _).inv_of_idle h.build h.canonical rfl

theorem onAnswer_keeps_inv {s : State} (h : s.Inv) (call : Nat) (a : Answer) : (onAnswer call a s).Inv := by
  obtain ⟨frame, hl, -, ht⟩ | ⟨-, ht⟩ := onAnswer_cases call a s
  · exact ht ▸ completeRender_keeps_inv h (by simp [hl]) a
  · exact ht.symm ▸ h

theorem onEvent_keeps_inv {s : State} (h : s.Inv) (e : Event) : (onEvent e s).Inv := by
  cases e with
  | answer call a => exact onAnswer_keeps_inv h call a
  | reset => exact hardwareReset_keeps_inv h

/-! ### Every step keeps the invariant -/

/-- Settles O57: a step is an event, a wait, a command on a block that is not `RENDERING`, or the answer to an illegal
word, and each keeps the invariant. -/
theorem everyStepKeepsTheInvariant : Obligations.EveryStepKeepsTheInvariant := by
  intro s t h hs
  obtain ⟨e, left, -, rfl, -⟩ | ⟨-, -, rfl⟩ | ⟨w, rest, i, hr, -, -, he⟩ | ⟨w, rest, why, -, -, -, rfl⟩ :=
    step_cases hs
  · exact onEvent_keeps_inv (h.with_inputs left) e
  · exact h
  · exact exec_keeps_inv (h.with_inputs rest) hr he
  · exact (h.with_inputs rest).with_response _ _

end Sys2Proof.Machine

/-! SUPPORT. The state of the block (10_state.md): the word the host presents decodes to its command, so the next step
runs it (R29, R50); what one step can do to the registers, the bytes, `STATE` and the log (R24, R25, R34, R36); and the
values a reset leaves (R37). -/

namespace Sys2Proof

/-! ### The word of a command decodes to it (R57, R60 to R66) -/

/-- The word of a command lies in the row of its mnemonic. -/
theorem encode_matches_opcode (i : Instr) : encode i &&& i.opcode.mask = i.opcode.pattern := by
  cases i with
  | encode v => exact Laws.EncodesInRow.encode v
  | init p w r => exact Laws.EncodesInRow.init p w r
  | setPixel i r g b => exact Laws.EncodesInRow.setPixel i r g b
  | clear => exact Laws.EncodesInRow.clear
  | render => exact Laws.EncodesInRow.render
  | release => exact Laws.EncodesInRow.release
  | readReg n => exact Laws.EncodesInRow.readReg n
  | readByte a => exact Laws.EncodesInRow.readByte a

theorem Opcode.opc_mask (o : Opcode) : opc o.mask = 0xFF#8 := by cases o <;> rfl

theorem Opcode.opc_pattern (o : Opcode) : opc o.pattern = o.number := by cases o <;> rfl

/-- R66: no two rows have one opcode. -/
theorem Opcode.number_injective : Function.Injective Opcode.number := by
  intro o o' h
  revert h; cases o <;> cases o' <;> decide

theorem Opcode.mem_opcodeTable (o : Opcode) : o ∈ opcodeTable := by cases o <;> decide

/-- Every mask covers the opcode, so a word that a row matches has that row's opcode. -/
theorem Opcode.opc_of_selects {o : Opcode} {w : CmdWord} (h : o.selects w = true) : opc w = o.number := by
  have hm : w &&& o.mask = o.pattern := by simpa [Opcode.selects] using h
  calc opc w = opc w &&& opc o.mask := by rw [o.opc_mask]; exact BitVec.and_allOnes.symm
    _ = opc (w &&& o.mask) := BitVec.extractLsb'_and.symm
    _ = o.number := by rw [hm, o.opc_pattern]

/-- The row that matches a word is the one the decoder finds (R57). -/
theorem decode_of_selects {o : Opcode} {w : CmdWord} (h : o.selects w = true) : decode w = .command (o.operands w) := by
  obtain ⟨o', ho'⟩ := Option.isSome_iff_exists.1
    (List.find?_isSome (p := fun o => o.selects w).2 ⟨o, o.mem_opcodeTable, h⟩)
  have hs := List.find?_some ho'
  have heq : o' = o := Opcode.number_injective ((Opcode.opc_of_selects hs).symm.trans (Opcode.opc_of_selects h))
  rw [decode, ho', heq]

theorem field_formatV (op v : BitVec 8) : field 0 8 (formatV op v) = v := BitVec.extractLsb'_append_eq_right

theorem field_formatA (op : BitVec 8) (a : BitVec 32) : field 0 32 (formatA op a) = a :=
  BitVec.extractLsb'_append_eq_right

theorem fields_formatI (op : BitVec 8) (p : BitVec 24) (w : BitVec 8) (r : BitVec 24) :
    field 32 24 (formatI op p w r) = p ∧ field 24 8 (formatI op p w r) = w ∧ field 0 24 (formatI op p w r) = r := by
  refine ⟨?_, ?_, BitVec.extractLsb'_append_eq_right⟩ <;> unfold field formatI
  · rw [BitVec.extractLsb'_append_eq_of_le (by decide), BitVec.extractLsb'_append_eq_of_le (by decide)]
    exact BitVec.extractLsb'_append_eq_right
  · rw [BitVec.extractLsb'_append_eq_of_le (by decide)]
    exact BitVec.extractLsb'_append_eq_right

theorem fields_formatP (op : BitVec 8) (i : BitVec 24) (r g b : BitVec 8) :
    field 32 24 (formatP op i r g b) = i ∧ field 16 8 (formatP op i r g b) = r ∧
      field 8 8 (formatP op i r g b) = g ∧ field 0 8 (formatP op i r g b) = b := by
  refine ⟨?_, ?_, ?_, BitVec.extractLsb'_append_eq_right⟩ <;> unfold field formatP
  · rw [BitVec.extractLsb'_append_eq_of_le (by decide), BitVec.extractLsb'_append_eq_of_le (by decide),
      BitVec.extractLsb'_append_eq_of_le (by decide), BitVec.extractLsb'_append_eq_of_le (by decide)]
    exact BitVec.extractLsb'_append_eq_right
  · rw [BitVec.extractLsb'_append_eq_of_le (by decide), BitVec.extractLsb'_append_eq_of_le (by decide)]
    exact BitVec.extractLsb'_append_eq_right
  · rw [BitVec.extractLsb'_append_eq_of_le (by decide)]
    exact BitVec.extractLsb'_append_eq_right

/-- The fields of a command's word are its operands (R60 to R65). -/
theorem operands_encode (i : Instr) : i.opcode.operands (encode i) = i := by
  cases i with
  | encode v => exact congrArg Instr.encode (field_formatV _ v)
  | init p w r =>
    obtain ⟨hp, hw, hr⟩ := fields_formatI 0x02#8 p w r
    simp [Instr.opcode, Opcode.operands, encode, hp, hw, hr]
  | setPixel i r g b =>
    obtain ⟨hi, hr, hg, hb⟩ := fields_formatP 0x03#8 i r g b
    simp [Instr.opcode, Opcode.operands, encode, hi, hr, hg, hb]
  | clear => rfl
  | render => rfl
  | release => rfl
  | readReg n => exact congrArg Instr.readReg (field_formatV _ n)
  | readByte a => exact congrArg Instr.readByte (field_formatA _ a)

/-- R57, R60 to R66: the decoder inverts the encoder. -/
@[simp] theorem decode_encode (i : Instr) : decode (encode i) = .command i := by
  have hs : i.opcode.selects (encode i) = true := by simpa [Opcode.selects] using encode_matches_opcode i
  rw [decode_of_selects hs, operands_encode]

end Sys2Proof

namespace Sys2Proof.Machine

/-! ### A presented command runs next -/

/-- A ready block whose next input is the word of a command runs that command, at the state without the word. -/
theorem step_of_command {s : State} {w : CmdWord} {rest : List Input} {i : Instr} (hr : s.isRendering = false)
    (hi : s.inputs = .command w :: rest) (hd : decode w = .command i) : step s = exec i { s with inputs := rest } := by
  rw [step_of_ready hr, stepReady, hi]
  dsimp only
  rw [accept, hd]

/-- All 64 bits of a word are placed (entry 9). -/
theorem withFetchWord_toNat (s : State) (w : CmdWord) : s.withFetchWord 64 w.toNat = presentWord w s := by
  rw [State.withFetchWord, Nat.mod_eq_of_lt w.isLt, BitVec.ofNat_toNat, BitVec.setWidth_eq]

/-- Settles O8: the word that is placed first decodes to its command, and without it the state is the one before. -/
theorem aPresentedCommandRunsNext : Obligations.APresentedCommandRunsNext := by
  intro s i hr
  rw [withFetchWord_toNat]
  exact step_of_command (s := presentWord (encode i) s) hr rfl (decode_encode i)

/-! ### What a step can do -/

/-- The step of a block that takes an event is the event's effect, at the state without it. -/
theorem step_of_takes {s : State} {e : Event} (h : s.takes e) :
    ∃ left, step s = .next (onEvent e { s with inputs := left }) := by
  obtain ⟨hr, left, hi⟩ | ⟨hr, left, he⟩ := h
  · exact ⟨left, by rw [step_of_ready hr, stepReady, hi]⟩
  · obtain ⟨frame, hl⟩ := (isRendering_eq_true_iff s).1 hr
    exact ⟨left, by rw [step_of_rendering hl, stepRendering, he]⟩

/-- A step is a reset, the answer that ends a render, a change of the port only (a wait, an answer that is ignored or an
illegal word), or a command the block accepts. -/
theorem step_effects {s t : State} (h : step s = .next t) :
    (∃ left, s.takes .reset ∧ t = hardwareReset { s with inputs := left }) ∨
      (∃ call a left frame, s.takes (.answer call a) ∧ s.lifecycle = .rendering frame ∧
        t = completeRender frame a { s with inputs := left }) ∨
      (∃ left rs, t = { s with inputs := left, responses := rs }) ∨
      ∃ i rest, s.accepts i ∧ exec i { s with inputs := rest } = .next t := by
  obtain ⟨e, left, he, rfl, -⟩ | ⟨-, -, rfl⟩ | ⟨w, rest, i, hr, hi, hd, hx⟩ | ⟨w, rest, why, -, -, -, rfl⟩ :=
    step_cases h
  · cases e with
    | reset => exact .inl ⟨left, he, rfl⟩
    | answer call a =>
      obtain ⟨frame, hl, -, ht⟩ | ⟨-, ht⟩ := onAnswer_cases call a { s with inputs := left }
      · exact .inr (.inl ⟨call, a, left, frame, he, hl, ht⟩)
      · exact .inr (.inr (.inl ⟨left, s.responses, ht⟩))
  · exact .inr (.inr (.inl ⟨t.inputs, t.responses, rfl⟩))
  · exact .inr (.inr (.inr ⟨i, rest, ⟨hr, w, rest, hi, hd⟩, hx⟩))
  · exact .inr (.inr (.inl ⟨rest, _, rfl⟩))

/-! ### The log and the constants -/

/-- What a reset appends to the log: nothing, or the write it cuts off (R140). -/
theorem abortedWrite_cases (l : Lifecycle) :
    abortedWrite l = [] ∨ ∃ frame, l = .rendering frame ∧ abortedWrite l = [⟨frame, .aborted⟩] := by
  cases l with
  | unconfigured => exact .inl rfl
  | idle => exact .inl rfl
  | rendering frame => exact .inr ⟨frame, rfl, rfl⟩

/-- Settles O33: only an answer that ends a render and a reset during one append to the log. -/
theorem theLogGrowsByEndedWritesOnly : Obligations.TheLogGrowsByEndedWritesOnly := by
  intro s t h
  obtain ⟨left, -, rfl⟩ | ⟨call, a, left, frame, -, hl, rfl⟩ | ⟨left, rs, rfl⟩ | ⟨i, rest, -, hx⟩ := step_effects h
  · obtain hn | ⟨frame, hl, ha⟩ := abortedWrite_cases s.lifecycle
    · exact .inl (by simp [hn])
    · exact .inr ⟨frame, .aborted, hl, rfl, by simp [ha]⟩
  · exact .inr ⟨frame, outcomeOf a, hl, by simp, by simp⟩
  · exact .inl rfl
  · obtain ⟨-, hlog, -⟩ := exec_keeps hx
    exact .inl hlog

/-- Settles O54: neither a reset, nor the end of a render, nor a command writes the build. -/
theorem constantsNeverChange : Obligations.ConstantsNeverChange := by
  intro s t h
  obtain ⟨left, -, rfl⟩ | ⟨call, a, left, frame, -, -, rfl⟩ | ⟨left, rs, rfl⟩ | ⟨i, rest, -, hx⟩ := step_effects h
  · exact hardwareReset_build _
  · exact completeRender_build _ _ _
  · rfl
  · obtain ⟨hb, -⟩ := exec_keeps hx
    exact hb

/-! ### The values a reset leaves -/

/-- Without a buffer no cell has a value (R27). -/
theorem fbByte_of_unconfigured {s : State} (h : s.lifecycle = .unconfigured) (a : Nat) : s.fbByte a = none :=
  (fbByte_eq_none_iff s a).2 (.inl h)

/-- Between commands no write is in flight for a reset to cut off (R37). -/
theorem abortedWrite_of_ready {s : State} (hr : s.isRendering = false) : abortedWrite s.lifecycle = [] := by
  obtain hn | ⟨frame, hl, -⟩ := abortedWrite_cases s.lifecycle
  · exact hn
  · exact absurd hl ((isRendering_eq_false_iff s).1 hr frame)

/-- Settles O47: the step that takes a reset is `hardwareReset`, at the state without the input. -/
theorem resetLeavesTheResetValues : Obligations.ResetLeavesTheResetValues := by
  intro s h
  obtain ⟨left, hs⟩ := step_of_takes h
  refine ⟨_, hs, rfl, rfl, rfl, rfl, rfl, rfl, rfl, fbByte_of_unconfigured rfl, rfl, fun hr => ?_, fun frame hl => ?_⟩
  · simp [onEvent, abortedWrite_of_ready hr]
  · simp [onEvent, hl, abortedWrite]

/-- Settles O48: the state at power-up has every register 0 and no buffer. -/
theorem theResetStateIsUnconfigured : Obligations.TheResetStateIsUnconfigured :=
  ⟨fun _ => ⟨rfl, rfl, rfl, rfl, rfl, rfl, rfl, fbByte_of_unconfigured rfl⟩, Config.resetBuild, rfl⟩

/-- A block is vacant at power-up, so it meets the invariant if R9 allows its capacity. -/
theorem powerOn_inv {b : Config.Build} (hb : b.wf) : (State.powerOn b).Inv :=
  State.Vacant.inv ⟨rfl, rfl, rfl, rfl⟩ hb rfl

/-- Settles O56: `State.reset` is the power-up state of a build with capacity 4096, which R9 allows. -/
theorem theResetStateMeetsTheInvariant : Obligations.TheResetStateMeetsTheInvariant :=
  ⟨fun _ => powerOn_inv, powerOn_inv (b := Config.resetBuild) (by decide)⟩

/-! ### Which commands change the registers, the bytes and `STATE` -/

/-- A command that only reads adds its response (R48). -/
theorem exec_of_isRead {i : Instr} {s t : State} (hi : isRead i = true) (h : exec i s = .next t) :
    ∃ st d, t = respond st d s := by
  cases i with
  | encode v => cases h; exact ⟨_, _, rfl⟩
  | readReg n => obtain ⟨r, -, rfl⟩ | ⟨-, rfl⟩ := execReadReg_cases h <;> exact ⟨_, _, rfl⟩
  | readByte a => obtain ⟨-, rfl⟩ | ⟨-, -, rfl⟩ | ⟨-, -, rfl⟩ := execReadByte_cases h <;> exact ⟨_, _, rfl⟩
  | init | setPixel | clear | render | release => cases hi

/-- Of the commands only `INIT` and `RELEASE` write a configuration register (R36). -/
theorem exec_keeps_registers {i : Instr} {s t : State} (h : exec i s = .next t) :
    (t.pixelCount = s.pixelCount ∧ t.symbolWidth = s.symbolWidth ∧ t.resetBytes = s.resetBytes) ∨
      (∃ p w r, i = .init p w r) ∨ i = .release := by
  cases i with
  | init p w r => exact .inr (.inl ⟨p, w, r, rfl⟩)
  | release => exact .inr (.inr rfl)
  | setPixel i r g b =>
    obtain ⟨-, rfl⟩ | ⟨-, -, rfl⟩ | ⟨-, -, rfl⟩ := execSetPixel_cases h <;> exact .inl ⟨rfl, rfl, rfl⟩
  | clear => obtain ⟨-, rfl⟩ | ⟨-, rfl⟩ := execClear_cases h <;> exact .inl ⟨rfl, rfl, rfl⟩
  | render => obtain ⟨-, rfl⟩ | ⟨-, rfl⟩ := execRender_cases h <;> exact .inl ⟨rfl, rfl, rfl⟩
  | encode | readReg | readByte => obtain ⟨st, d, rfl⟩ := exec_of_isRead rfl h; exact .inl ⟨rfl, rfl, rfl⟩

/-- Of the commands only `INIT`, `RENDER` and `RELEASE` write `STATE` (R36). -/
theorem exec_keeps_lifecycle {i : Instr} {s t : State} (h : exec i s = .next t) :
    t.lifecycle = s.lifecycle ∨ (∃ p w r, i = .init p w r) ∨ i = .render ∨ i = .release := by
  cases i with
  | init p w r => exact .inr (.inl ⟨p, w, r, rfl⟩)
  | render => exact .inr (.inr (.inl rfl))
  | release => exact .inr (.inr (.inr rfl))
  | setPixel i r g b => obtain ⟨-, rfl⟩ | ⟨-, -, rfl⟩ | ⟨-, -, rfl⟩ := execSetPixel_cases h <;> exact .inl rfl
  | clear => obtain ⟨-, rfl⟩ | ⟨-, rfl⟩ := execClear_cases h <;> exact .inl rfl
  | encode | readReg | readByte => obtain ⟨st, d, rfl⟩ := exec_of_isRead rfl h; exact .inl rfl

/-- While a buffer exists, the value of a cell does not depend on whether a render is in progress (R27). -/
theorem fbByte_with_lifecycle {s : State} {l : Lifecycle} (hs : s.lifecycle ≠ .unconfigured) (hl : l ≠ .unconfigured)
    (a : Nat) : State.fbByte { s with lifecycle := l } a = s.fbByte a := by
  have hc : State.configured { s with lifecycle := l } = s.configured :=
    ((configured_eq_true_iff _).2 hl).trans ((configured_eq_true_iff s).2 hs).symm
  simp only [State.fbByte, State.addressable, hc]
  rfl

/-- Of the commands only `SET_PIXEL` and `CLEAR` change a byte that is addressable before and after them (R36): `INIT`
finds no byte addressable, and `RELEASE` leaves none. -/
theorem exec_keeps_bytes {i : Instr} {s t : State} (h : exec i s = .next t) :
    (∀ a, t.fbByte a = s.fbByte a ∨ s.fbByte a = none ∨ t.fbByte a = none) ∨
      (∃ n r g b, i = .setPixel n r g b) ∨ i = .clear := by
  cases i with
  | setPixel n r g b => exact .inr (.inl ⟨n, r, g, b, rfl⟩)
  | clear => exact .inr (.inr rfl)
  | init p w r =>
    obtain ⟨-, rfl⟩ | ⟨hf, rfl⟩ := execInit_cases h
    · exact .inl fun _ => .inl rfl
    · obtain ⟨hu, -⟩ := (initFails_eq_false_iff p w r s).1 hf
      exact .inl fun a => .inr (.inl (fbByte_of_unconfigured hu a))
  | render =>
    obtain ⟨-, rfl⟩ | ⟨hc, rfl⟩ := execRender_cases h
    · exact .inl fun _ => .inl rfl
    · exact .inl fun a => .inl (fbByte_with_lifecycle hc (by simp) a)
  | release =>
    obtain ⟨-, rfl⟩ | ⟨-, rfl⟩ := execRelease_cases h
    · exact .inl fun _ => .inl rfl
    · exact .inl fun a => .inr (.inr (fbByte_of_unconfigured rfl a))
  | encode | readReg | readByte => obtain ⟨st, d, rfl⟩ := exec_of_isRead rfl h; exact .inl fun _ => .inl rfl

/-- The end of a render changes no byte (R107). -/
theorem completeRender_fbByte {s : State} (hc : s.lifecycle ≠ .unconfigured) (frame : List Byte) (a : Answer)
    (x : Nat) : (completeRender frame a s).fbByte x = s.fbByte x := by
  rw [completeRender_eq]
  exact fbByte_with_lifecycle (l := .idle) hc (by simp) x

/-! ### Which steps change them -/

/-- R36: a step leaves the configuration registers alone, or is `INIT`, `RELEASE` or a reset. -/
theorem step_keeps_registers {s t : State} (h : step s = .next t) :
    (t.pixelCount = s.pixelCount ∧ t.symbolWidth = s.symbolWidth ∧ t.resetBytes = s.resetBytes) ∨
      (∃ p w r, s.accepts (.init p w r)) ∨ s.accepts .release ∨ s.takes .reset := by
  obtain ⟨left, hr, -⟩ | ⟨call, a, left, frame, -, -, rfl⟩ | ⟨left, rs, rfl⟩ | ⟨i, rest, hi, hx⟩ := step_effects h
  · exact .inr (.inr (.inr hr))
  · exact .inl (by simp)
  · exact .inl ⟨rfl, rfl, rfl⟩
  · obtain hk | ⟨p, w, r, rfl⟩ | rfl := exec_keeps_registers hx
    · exact .inl hk
    · exact .inr (.inl ⟨p, w, r, hi⟩)
    · exact .inr (.inr (.inl hi))

/-- R36: a step changes no byte that is addressable before and after it, or is `SET_PIXEL` or `CLEAR`. -/
theorem step_keeps_bytes {s t : State} (h : step s = .next t) :
    (∀ a, t.fbByte a = s.fbByte a ∨ s.fbByte a = none ∨ t.fbByte a = none) ∨
      (∃ n r g b, s.accepts (.setPixel n r g b)) ∨ s.accepts .clear := by
  obtain ⟨left, -, rfl⟩ | ⟨call, a, left, frame, -, hl, rfl⟩ | ⟨left, rs, rfl⟩ | ⟨i, rest, hi, hx⟩ := step_effects h
  · exact .inl fun x => .inr (.inr (fbByte_of_unconfigured rfl x))
  · exact .inl fun x => .inl (completeRender_fbByte (s := { s with inputs := left }) (by simp [hl]) frame a x)
  · exact .inl fun _ => .inl rfl
  · obtain hk | ⟨n, r, g, b, rfl⟩ | rfl := exec_keeps_bytes hx
    · exact .inl hk
    · exact .inr (.inl ⟨n, r, g, b, hi⟩)
    · exact .inr (.inr hi)

/-- R36: a step leaves `STATE` alone, or is `INIT`, `RENDER`, `RELEASE`, a reset or an answer during a render. -/
theorem step_keeps_lifecycle {s t : State} (h : step s = .next t) :
    t.lifecycle = s.lifecycle ∨ (∃ p w r, s.accepts (.init p w r)) ∨ s.accepts .render ∨ s.accepts .release ∨
      s.takes .reset ∨ (s.isRendering = true ∧ ∃ call a, s.takes (.answer call a)) := by
  obtain ⟨left, hr, -⟩ | ⟨call, a, left, frame, ha, hl, -⟩ | ⟨left, rs, rfl⟩ | ⟨i, rest, hi, hx⟩ := step_effects h
  · exact .inr (.inr (.inr (.inr (.inl hr))))
  · exact .inr (.inr (.inr (.inr (.inr ⟨(isRendering_eq_true_iff s).2 ⟨frame, hl⟩, call, a, ha⟩))))
  · exact .inl rfl
  · obtain hk | ⟨p, w, r, rfl⟩ | rfl | rfl := exec_keeps_lifecycle hx
    · exact .inl hk
    · exact .inr (.inl ⟨p, w, r, hi⟩)
    · exact .inr (.inr (.inl hi))
    · exact .inr (.inr (.inr (.inl hi)))

/-- Settles O53: the contrapositive of the three frame lemmas of a step. -/
theorem stateChangesOnlyByItsCommands : Obligations.StateChangesOnlyByItsCommands := by
  intro s t h
  refine ⟨fun hne => ?_, fun a x y hx hy hxy => ?_, fun hne => ?_⟩
  · refine (step_keeps_registers h).resolve_left fun ⟨hp, hw, hr⟩ => ?_
    simp [hp, hw, hr] at hne
  · refine (step_keeps_bytes h).resolve_left fun hk => ?_
    have hb := hk a
    simp [hx, hy, hxy.symm] at hb
  · exact (step_keeps_lifecycle h).resolve_left hne

end Sys2Proof.Machine

/-! SUPPORT. The data of the block (20_memory.md): the order of bytes and bits (R40), the storage and the regions of the
frame buffer that the commands write (R43, R48, R55), and how a step takes one input (R50, R51). -/

namespace Sys2Proof.Machine

/-! ### The order of bits on the line (R40) -/

@[simp] theorem length_byteBits (b : Byte) : (byteBits b).length = 8 := by simp [byteBits]

/-- R40: bit 7 of a byte is sent first. -/
theorem getElem?_byteBits (b : Byte) {k : Nat} (hk : k < 8) : (byteBits b)[k]? = some (b.getLsbD (7 - k)) := by
  simp [byteBits, hk]

theorem lineBits_cons (b : Byte) (bytes : List Byte) : lineBits (b :: bytes) = byteBits b ++ lineBits bytes :=
  List.flatMap_cons

/-- R40: each byte takes eight places on the line, in rising address order. -/
theorem getElem?_lineBits {bytes : List Byte} {k : Nat} {b : Byte} (h : bytes[k / 8]? = some b) :
    (lineBits bytes)[k]? = some (b.getLsbD (7 - k % 8)) := by
  induction bytes generalizing k with
  | nil => simp at h
  | cons c bytes ih =>
    rw [lineBits_cons]
    rcases Nat.lt_or_ge k 8 with hk | hk
    · have hcb : c = b := by simpa [Nat.div_eq_of_lt hk] using h
      rw [List.getElem?_append_left (by simpa using hk), getElem?_byteBits c hk, Nat.mod_eq_of_lt hk, hcb]
    · have hdiv : k / 8 = (k - 8) / 8 + 1 := by omega
      have hmod : k % 8 = (k - 8) % 8 := by omega
      rw [hdiv, List.getElem?_cons_succ] at h
      rw [List.getElem?_append_right (by simpa using hk), length_byteBits, ih h, hmod]

/-! ### The order of bytes in the storage (R15, R40) -/

theorem getElem?_readBytes (m : Memory) (a : Nat) {n k : Nat} (hk : k < n) :
    (Memory.readBytes m a n)[k]? = some (Memory.read m (a + k)) := by
  simp [Memory.readBytes, hk]

theorem getElem?_bytesOf {n k : Nat} (v : BitVec (8 * n)) (hk : k < n) :
    (bytesOf n v)[k]? = some (v.extractLsb' (8 * (n - 1 - k)) 8) := by
  simp [bytesOf, hk]

/-- R40: `MemWrite` stores byte `k` of its value, most significant first, at `k` past its address. -/
theorem read_memWrite {m : Memory} (h : Memory.wf m) (a : Nat) {n k : Nat} (v : BitVec (8 * n)) (hk : k < n) :
    Memory.read (memWrite m a n v) (a + k) = v.extractLsb' (8 * (n - 1 - k)) 8 := by
  have hb := getElem?_readBytes (memWrite m a n v) a hk
  rw [readBytes_memWrite h, getElem?_bytesOf v hk] at hb
  exact (Option.some.inj hb).symm

/-- The bytes folded into a value stand below what it held before. -/
theorem foldl_bytes_div (bs : List Byte) (acc : Nat) :
    bs.foldl (fun acc b => 256 * acc + b.toNat) acc / 256 ^ bs.length = acc := by
  induction bs generalizing acc with
  | nil => simp
  | cons b bs ih =>
    rw [List.foldl_cons, List.length_cons, pow_succ, ← Nat.div_div_eq_div_mul, ih]
    have := b.isLt
    omega

/-- A byte of a value stands above the bytes that follow it (R40). -/
theorem extractLsb'_valueOf (n : Nat) (xs ys : List Byte) (b : Byte) (hn : (xs ++ b :: ys).length = n) :
    (valueOf n (xs ++ b :: ys)).extractLsb' (8 * ys.length) 8 = b := by
  have hlt : (xs ++ b :: ys).foldl (fun acc b => 256 * acc + b.toNat) 0 < 2 ^ (8 * n) := by
    simpa [pow_mul, hn] using foldl_bytes_lt (xs ++ b :: ys) 0
  have hbase : (2 : Nat) ^ 8 = 256 := by norm_num
  refine BitVec.eq_of_toNat_eq ?_
  rw [BitVec.extractLsb'_toNat, valueOf, BitVec.toNat_ofNat, Nat.mod_eq_of_lt hlt, Nat.shiftRight_eq_div_pow, pow_mul,
    hbase, List.foldl_append, List.foldl_cons, foldl_bytes_div, Nat.mul_add_mod, Nat.mod_eq_of_lt b.isLt]

/-- R40: `MemRead` takes byte `k` of its value, most significant first, from `k` past its address. -/
theorem extractLsb'_memRead (m : Memory) (a : Nat) {n k : Nat} (hk : k < n) :
    (memRead m a n).extractLsb' (8 * (n - 1 - k)) 8 = Memory.read m (a + k) := by
  obtain ⟨hk', hb⟩ := List.getElem?_eq_some_iff.1 (getElem?_readBytes m a hk)
  have hsplit := List.take_append_drop k (Memory.readBytes m a n)
  rw [← List.getElem_cons_drop hk', hb] at hsplit
  have h := extractLsb'_valueOf n ((Memory.readBytes m a n).take k) ((Memory.readBytes m a n).drop (k + 1))
    (Memory.read m (a + k)) (by simp [hsplit])
  rw [hsplit, List.length_drop, length_readBytes, show n - (k + 1) = n - 1 - k by omega] at h
  exact h

/-- Settles O13: the line takes a byte's bits, and both memory accesses a value's bytes, most significant first. -/
theorem bytesAndBitsAreMostSignificantFirst : Obligations.BytesAndBitsAreMostSignificantFirst :=
  ⟨fun _ _ _ => getElem?_lineBits, fun _ a _ v _ hm hk => read_memWrite hm a v hk,
    fun m a _ _ hk => extractLsb'_memRead m a hk⟩

/-! ### What the writes store does not depend on what was there (R48) -/

section congr
variable {m m' : Memory} {x : Nat} (h : Memory.wf m) (h' : Memory.wf m')
include h h'

/-- After one `MemWrite` two memories agree where they agreed before, and in its range. -/
theorem read_memWrite_congr {a n : Nat} (v : BitVec (8 * n))
    (hx : x < a ∨ a + n ≤ x → Memory.read m x = Memory.read m' x) :
    Memory.read (memWrite m a n v) x = Memory.read (memWrite m' a n v) x := by
  by_cases ho : x < a ∨ a + n ≤ x
  · rw [read_memWrite_of_outside h v ho, read_memWrite_of_outside h' v ho, hx ho]
  · obtain ⟨k, rfl⟩ := Nat.exists_eq_add_of_le (show a ≤ x by omega)
    rw [read_memWrite h a v (by omega), read_memWrite h' a v (by omega)]

/-- The same for the nine bytes of a pixel (R91). -/
theorem read_writePixel_congr {i : Nat} (r g b : Byte)
    (hx : x < 9 * i ∨ 9 * i + 9 ≤ x → Memory.read m x = Memory.read m' x) :
    Memory.read (writePixel m i r g b) x = Memory.read (writePixel m' i r g b) x := by
  have hb : pixelBase i = 9 * i := rfl
  have hg := wf_memWrite h (pixelBase i) 3 (enc g)
  have hg' := wf_memWrite h' (pixelBase i) 3 (enc g)
  refine read_memWrite_congr (wf_memWrite hg _ _ _) (wf_memWrite hg' _ _ _) _ fun _ => ?_
  refine read_memWrite_congr hg hg' _ fun _ => ?_
  exact read_memWrite_congr h h' _ fun _ => hx (by omega)

/-- The same for the pixels `CLEAR` writes (R96). -/
theorem read_clearPixels_congr {n : Nat} (hx : 9 * n ≤ x → Memory.read m x = Memory.read m' x) :
    Memory.read (clearPixels m n) x = Memory.read (clearPixels m' n) x := by
  induction n with
  | zero => exact hx (Nat.zero_le x)
  | succ n ih =>
    refine read_writePixel_congr (wf_clearPixels h n) (wf_clearPixels h' n) 0 0 0 fun ho => ?_
    rcases ho with ho | ho
    · exact ih fun hge => absurd hge (by omega)
    · exact ih fun _ => hx (by omega)

end congr

/-- Clearing the same pixels again leaves the same memory (R48). -/
theorem clearPixels_clearPixels {m : Memory} (h : Memory.wf m) (n : Nat) :
    clearPixels (clearPixels m n) n = clearPixels m n := by
  have hc := wf_clearPixels h n
  exact memory_ext (wf_clearPixels hc n) hc fun _ => read_clearPixels_congr hc h (read_clearPixels_of_outside h)

/-- Settles O24: the second `CLEAR` fails with no effect, or writes the same pixels again. -/
theorem clearIsIdempotent : Obligations.ClearIsIdempotent := by
  intro s t u hm ht hu
  obtain ⟨-, rfl⟩ | ⟨hc, rfl⟩ := execClear_cases hu
  · rfl
  · obtain ⟨hl, rfl⟩ | ⟨-, rfl⟩ := execClear_cases ht
    · exact absurd hl hc
    · exact clearPixels_clearPixels hm s.pixelCount.toNat

/-! ### Nothing of an earlier configuration is observed (R55) -/

/-- After `INIT` on an unconfigured block exactly the cells of a buffer it has made have a value, which is the zero fill
(R86). -/
theorem execInit_fbByte {p : Count} {w : BitVec 8} {r : Count} {s t : State} (hl : s.lifecycle = .unconfigured)
    (h : execInit p w r s = .next t) (a : Nat) :
    t.fbByte a = if initFails p w r s = false ∧ a < initTotal p r then some 0 else none := by
  obtain ⟨hf, rfl⟩ | ⟨hf, rfl⟩ := execInit_cases h
  · rw [if_neg (by simp [hf])]
    exact fbByte_of_unconfigured hl a
  · by_cases ha : a < initTotal p r
    · rw [if_pos ⟨hf, ha⟩, fbByte_of_addressable (by simp) ha, respond_fb, read_zeroFill, if_pos ha]
    · rw [if_neg fun h => ha h.2]
      exact (fbByte_eq_none_iff _ a).2 (.inr (Nat.le_of_not_lt ha))

/-- Settles O27: a block that frees its buffer is unconfigured, and what `INIT` leaves in a cell does not mention the
storage before it. -/
theorem noByteSurvivesReinitialisation : Obligations.NoByteSurvivesReinitialisation := by
  refine ⟨fun s t hc h => ?_, fun _ => fbByte_of_unconfigured rfl, fun p w r s s' t t' hl hs h h' a => ?_⟩
  · obtain ⟨hl, -⟩ | ⟨-, rfl⟩ := execRelease_cases h
    · exact absurd hl hc
    · exact fbByte_of_unconfigured rfl
  · have hl' : s'.lifecycle = .unconfigured := (congrArg State.lifecycle hs).trans hl
    have hf : initFails p w r s' = initFails p w r s := by rw [hs]; rfl
    rw [execInit_fbByte hl h, execInit_fbByte hl' h', hf]

/-! ### The reset region (R43) -/

/-- A command that finds a buffer and leaves one leaves its registers alone: `INIT` fails, and `RELEASE` leaves none. -/
theorem exec_keeps_registers_of_configured {i : Instr} {s t : State} (h : exec i s = .next t)
    (hs : s.lifecycle ≠ .unconfigured) (ht : t.lifecycle ≠ .unconfigured) :
    t.pixelCount = s.pixelCount ∧ t.symbolWidth = s.symbolWidth ∧ t.resetBytes = s.resetBytes := by
  obtain hk | ⟨p, w, r, rfl⟩ | rfl := exec_keeps_registers h
  · exact hk
  · obtain ⟨-, rfl⟩ | ⟨hf, -⟩ := execInit_cases h
    · exact ⟨rfl, rfl, rfl⟩
    · exact absurd ((initFails_eq_false_iff p w r s).1 hf).1 hs
  · obtain ⟨hl, -⟩ | ⟨-, rfl⟩ := execRelease_cases h
    · exact absurd hl hs
    · exact absurd rfl ht

/-- `SET_PIXEL` writes below the reset region (R93). -/
theorem execSetPixel_keeps_resetRegion {n : Count} {r g b : Byte} {s t : State} (hm : Memory.wf s.fb)
    (h : execSetPixel n r g b s = .next t) {a : Nat} (ha : s.pixelBytes ≤ a) :
    Memory.read t.fb a = Memory.read s.fb a := by
  obtain ⟨-, rfl⟩ | ⟨-, -, rfl⟩ | ⟨-, hn, rfl⟩ := execSetPixel_cases h
  · rfl
  · rfl
  · rw [pixelBytes_eq] at ha
    exact read_writePixel_of_outside hm r g b (by omega)

/-- `CLEAR` writes below the reset region (R96). -/
theorem execClear_keeps_resetRegion {s t : State} (hm : Memory.wf s.fb) (h : execClear s = .next t) {a : Nat}
    (ha : s.pixelBytes ≤ a) : Memory.read t.fb a = Memory.read s.fb a := by
  obtain ⟨-, rfl⟩ | ⟨-, rfl⟩ := execClear_cases h
  · rfl
  · exact read_clearPixels_of_outside hm ha

/-- R43: a command that finds a buffer and leaves one writes no byte of the reset region. -/
theorem exec_keeps_resetRegion {i : Instr} {s t : State} (hm : Memory.wf s.fb) (h : exec i s = .next t)
    (hs : s.lifecycle ≠ .unconfigured) (ht : t.lifecycle ≠ .unconfigured) {a : Nat} (ha : s.pixelBytes ≤ a)
    (hlt : a < s.totalBytes) : t.fbByte a = s.fbByte a := by
  obtain ⟨hp, -, hr⟩ := exec_keeps_registers_of_configured h hs ht
  have hlt' : a < t.totalBytes := by rwa [totalBytes_eq, hp, hr, ← totalBytes_eq]
  rw [fbByte_of_addressable ht hlt', fbByte_of_addressable hs hlt]
  obtain hk | ⟨n, r, g, b, rfl⟩ | rfl := exec_keeps_bytes h
  · simpa [fbByte_of_addressable ht hlt', fbByte_of_addressable hs hlt] using hk a
  · rw [execSetPixel_keeps_resetRegion hm h ha]
  · rw [execClear_keeps_resetRegion hm h ha]

/-- Settles O28: no command writes the region, and the invariant, which a step keeps, has it at 0x00. -/
theorem theResetRegionStaysZero : Obligations.TheResetRegionStaysZero := by
  refine ⟨fun i s t hm hs ht h a ha hlt => exec_keeps_resetRegion hm h hs ht ha hlt, fun s t hi h ht a ha hlt => ?_⟩
  have halloc : t.Allocated := (everyStepKeepsTheInvariant s t hi h).allocated ht
  rw [fbByte_of_addressable ht hlt, halloc.resetRegion a ha]

/-! ### One input at a time (R50), and what a render sends (R51) -/

@[simp] theorem onEvent_inputs (e : Event) (s : State) : (onEvent e s).inputs = s.inputs := by
  cases e with
  | reset => rfl
  | answer call a =>
    obtain ⟨frame, -, -, ht⟩ | ⟨-, ht⟩ := onAnswer_cases call a s
    · exact (congrArg State.inputs ht).trans (completeRender_inputs frame a s)
    · exact congrArg State.inputs ht

/-- Settles O55: an event, a command and an illegal word are each taken from the inputs, and their effects leave the
rest alone. -/
theorem everyStepTakesOneInput : Obligations.EveryStepTakesOneInput := by
  intro s t h
  obtain ⟨e, left, -, rfl, ⟨hr, he⟩ | ⟨hr, hi⟩⟩ | ⟨hr, hi, ht⟩ | ⟨w, rest, i, hr, hi, -, hx⟩ |
    ⟨w, rest, why, hr, hi, -, rfl⟩ := step_cases h
  · refine ⟨fun hf => by simp [hf] at hr, fun _ => ?_⟩
    obtain ⟨held, post, hin, rfl⟩ := (takeEvent_eq_some_iff _ _ _).1 he
    exact ⟨held, e, post, hin, onEvent_inputs e _⟩
  · exact ⟨fun _ => .inr ⟨_, by rw [onEvent_inputs]; exact hi⟩, fun hf => by simp [hf] at hr⟩
  · exact ⟨fun _ => .inl ⟨hi, ht⟩, fun hf => by simp [hf] at hr⟩
  · obtain ⟨-, -, hin, -⟩ := exec_keeps hx
    exact ⟨fun _ => .inr ⟨_, by rw [hin]; exact hi⟩, fun hf => by simp [hf] at hr⟩
  · exact ⟨fun _ => .inr ⟨_, hi⟩, fun hf => by simp [hf] at hr⟩

/-- Settles O7: the step of a ready block accepts the word, and the word decodes to the command. -/
theorem aStepRunsTheDecodedCommand : Obligations.AStepRunsTheDecodedCommand :=
  fun _ _ _ _ => step_of_command

/-- `RENDER` on a block with a buffer starts the write of its frame (R107). -/
theorem execRender_of_configured {s : State} (hc : s.lifecycle ≠ .unconfigured) :
    execRender s = .next { s with lifecycle := .rendering s.frame } :=
  if_pos ((configured_eq_true_iff s).2 hc)

theorem getElem?_frame (s : State) {a : Nat} (ha : a < s.totalBytes) : s.frame[a]? = some (Memory.read s.fb a) := by
  rw [State.frame, getElem?_readBytes s.fb 0 ha, Nat.zero_add]

/-- Settles O29: the write in flight is the frame, which lists the buffer's bytes. -/
theorem renderPutsTheWholeBufferInFlight : Obligations.RenderPutsTheWholeBufferInFlight :=
  fun s hl => ⟨s.frame, length_readBytes s.fb 0 s.totalBytes, fun _ => getElem?_frame s,
    execRender_of_configured (by simp [hl])⟩

end Sys2Proof.Machine

/-! SUPPORT. The encoding of the commands (30_encoding.md): the decoder answers a word by the row that selects it, or
finds it illegal (R57, R68); the fields a row fixes leave one word per command (R58); the assembler keeps operands as
written (R71); and which responses carry `DATA` (R59). -/

namespace Sys2Proof

/-! ### The decoder, by its rows (R57) -/

theorem Opcode.selects_iff (o : Opcode) (w : CmdWord) : o.selects w = true ↔ w &&& o.mask = o.pattern := by
  rw [Opcode.selects, beq_iff_eq]

/-- R57: a word decodes by the row that selects it, or is `ILLEGAL` because none does. -/
theorem decode_cases (w : CmdWord) :
    (∃ o : Opcode, o.selects w = true ∧ decode w = .command (o.operands w)) ∨
      ((∀ o : Opcode, o.selects w ≠ true) ∧ decode w = .illegal (rejection w)) := by
  by_cases h : ∃ o : Opcode, o.selects w = true
  · obtain ⟨o, ho⟩ := h
    exact .inl ⟨o, ho, decode_of_selects ho⟩
  · have hn : ∀ o : Opcode, o.selects w ≠ true := not_exists.1 h
    have hf : opcodeTable.find? (fun o => o.selects w) = none := List.find?_eq_none.2 fun o _ => hn o
    exact .inr ⟨hn, by rw [decode, hf]⟩

/-- A word is illegal if the only row it could match, that of its opcode, does not select it. -/
theorem decode_illegal {w : CmdWord} (h : ∀ o : Opcode, o.number = opc w → o.selects w ≠ true) :
    ∃ why, decode w = .illegal why := by
  obtain ⟨o, ho, -⟩ | ⟨-, hd⟩ := decode_cases w
  · exact absurd ho (h o (Opcode.opc_of_selects ho).symm)
  · exact ⟨_, hd⟩

/-- A word of an assigned opcode that leaves its row is illegal (R68). -/
theorem decode_illegal_of_number {o : Opcode} {w : CmdWord} (hn : o.number = opc w) (hs : o.selects w ≠ true) :
    ∃ why, decode w = .illegal why :=
  decode_illegal fun _ hn' => Opcode.number_injective (hn'.trans hn.symm) ▸ hs

/-- R66: the assigned opcodes are 0x01 to 0x08. -/
theorem Opcode.number_bounds (o : Opcode) : 0 < o.number.toNat ∧ o.number.toNat < 9 := by cases o <;> decide

/-- The opcodes 0x00 and 0x09 to 0xFF are unassigned (R68). -/
theorem decode_illegal_of_unassigned {w : CmdWord} (h : opc w = 0 ∨ 9 ≤ (opc w).toNat) :
    ∃ why, decode w = .illegal why := by
  refine decode_illegal fun o hn _ => ?_
  have hb := o.number_bounds
  rw [hn] at hb
  rcases h with h | h
  · simp [h] at hb
  · omega

/-- Settles O2: a command's word lies in the command's row, and its fields are the operands. -/
theorem decodeOfEncodeIsTheCommand : Obligations.DecodeOfEncodeIsTheCommand := decode_encode

/-- Settles O1: the row that matches decides the decoding; two rows that match share the word's opcode. -/
theorem decodeTakesTheUniqueMatchingRow : Obligations.DecodeTakesTheUniqueMatchingRow := by
  refine ⟨fun o w h => decode_of_selects ((o.selects_iff w).2 h), fun w hn => ?_, fun o o' w h h' => ?_⟩
  · exact decode_illegal fun o _ => mt (o.selects_iff w).1 (hn o)
  · have ho : opc w = o.number := Opcode.opc_of_selects ((o.selects_iff w).2 h)
    have ho' : opc w = o'.number := Opcode.opc_of_selects ((o'.selects_iff w).2 h')
    exact Opcode.number_injective (ho.symm.trans ho')

/-- Settles O5: each word is the encoding of its command. -/
theorem sampleWordsDecode : Obligations.SampleWordsDecode :=
  ⟨decode_encode (.encode 0xA5), decode_encode (.init 3 3 10), decode_encode (.setPixel 0xFFFFFF 0x80 0x81 0x82),
    decode_encode .clear, decode_encode .render, decode_encode .release, decode_encode (.readReg 5),
    decode_encode (.readByte 12)⟩

/-! ### The bits a row fixes (R58) -/

/-- Two neighbouring fields are one field of a word. -/
theorem field_append_field (lo n m : Nat) (w : CmdWord) :
    field (lo + m) n w ++ field lo m w = field lo (n + m) w :=
  BitVec.extractLsb'_append_extractLsb'_eq_extractLsb' rfl

theorem field_zero_64 (w : CmdWord) : field 0 64 w = w := BitVec.extractLsb'_eq_self

/-- Where a row's mask covers a field, the words of the row agree with its pattern. -/
theorem Opcode.field_of_selects {o : Opcode} {w : CmdWord} (h : o.selects w = true) {lo n : Nat}
    (hm : field lo n o.mask = BitVec.allOnes n) : field lo n w = field lo n o.pattern := by
  calc field lo n w = field lo n w &&& field lo n o.mask := by rw [hm, BitVec.and_allOnes]
    _ = field lo n (w &&& o.mask) := BitVec.extractLsb'_and.symm
    _ = field lo n o.pattern := by rw [(o.selects_iff w).1 h]

/-- R58: a word of an assigned opcode with a bit set in a reserved field of its format is illegal. -/
theorem decode_illegal_of_reserved (o : Opcode) (lo n : Nat) {w : CmdWord} (hn : opc w = o.number)
    (hw : field lo n w ≠ 0) (hm : field lo n o.mask = BitVec.allOnes n) (hp : field lo n o.pattern = 0) :
    ∃ why, decode w = .illegal why :=
  decode_illegal_of_number hn.symm fun hs => hw ((Opcode.field_of_selects hs hm).trans hp)

/-! ### One word per command (R58) -/

section formats
variable {w : CmdWord} {op : BitVec 8} (ho : opc w = op)
include ho

theorem formatN_of_fields (h : field 0 56 w = 0) : formatN op = w := by
  calc formatN op = opc w ++ field 0 56 w := by rw [h, ho]; rfl
    _ = field 0 64 w := field_append_field 0 8 56 w
    _ = w := field_zero_64 w

theorem formatV_of_fields (h : field 8 48 w = 0) : formatV op (field 0 8 w) = w := by
  calc formatV op (field 0 8 w) = opc w ++ field 8 48 w ++ field 0 8 w := by rw [h, ho]; rfl
    _ = field 8 56 w ++ field 0 8 w := congrArg (· ++ _) (field_append_field 8 8 48 w)
    _ = field 0 64 w := field_append_field 0 56 8 w
    _ = w := field_zero_64 w

theorem formatI_of_fields : formatI op (field 32 24 w) (field 24 8 w) (field 0 24 w) = w := by
  calc formatI op (field 32 24 w) (field 24 8 w) (field 0 24 w)
      = opc w ++ field 32 24 w ++ field 24 8 w ++ field 0 24 w := by rw [ho]; rfl
    _ = field 32 32 w ++ field 24 8 w ++ field 0 24 w := congrArg (· ++ _ ++ _) (field_append_field 32 8 24 w)
    _ = field 24 40 w ++ field 0 24 w := congrArg (· ++ _) (field_append_field 24 32 8 w)
    _ = field 0 64 w := field_append_field 0 40 24 w
    _ = w := field_zero_64 w

theorem formatP_of_fields (h : field 24 8 w = 0) :
    formatP op (field 32 24 w) (field 16 8 w) (field 8 8 w) (field 0 8 w) = w := by
  calc formatP op (field 32 24 w) (field 16 8 w) (field 8 8 w) (field 0 8 w)
      = opc w ++ field 32 24 w ++ field 24 8 w ++ field 16 8 w ++ field 8 8 w ++ field 0 8 w := by rw [h, ho]; rfl
    _ = field 32 32 w ++ field 24 8 w ++ field 16 8 w ++ field 8 8 w ++ field 0 8 w :=
      congrArg (· ++ _ ++ _ ++ _ ++ _) (field_append_field 32 8 24 w)
    _ = field 24 40 w ++ field 16 8 w ++ field 8 8 w ++ field 0 8 w :=
      congrArg (· ++ _ ++ _ ++ _) (field_append_field 24 32 8 w)
    _ = field 16 48 w ++ field 8 8 w ++ field 0 8 w := congrArg (· ++ _ ++ _) (field_append_field 16 40 8 w)
    _ = field 8 56 w ++ field 0 8 w := congrArg (· ++ _) (field_append_field 8 48 8 w)
    _ = field 0 64 w := field_append_field 0 56 8 w
    _ = w := field_zero_64 w

theorem formatA_of_fields (h : field 32 24 w = 0) : formatA op (field 0 32 w) = w := by
  calc formatA op (field 0 32 w) = opc w ++ field 32 24 w ++ field 0 32 w := by rw [h, ho]; rfl
    _ = field 32 32 w ++ field 0 32 w := congrArg (· ++ _) (field_append_field 32 8 24 w)
    _ = field 0 64 w := field_append_field 0 32 32 w
    _ = w := field_zero_64 w

end formats

/-- The operands of a word that a row selects, encoded, are the word: the row fixes every bit that no operand holds. -/
theorem encode_operands {o : Opcode} {w : CmdWord} (h : o.selects w = true) : encode (o.operands w) = w := by
  have hn : opc w = o.number := Opcode.opc_of_selects h
  cases o with
  | encode => exact formatV_of_fields hn (Opcode.field_of_selects h rfl)
  | init => exact formatI_of_fields hn
  | setPixel => exact formatP_of_fields hn (Opcode.field_of_selects h rfl)
  | clear => exact formatN_of_fields hn (Opcode.field_of_selects h rfl)
  | render => exact formatN_of_fields hn (Opcode.field_of_selects h rfl)
  | release => exact formatN_of_fields hn (Opcode.field_of_selects h rfl)
  | readReg => exact formatV_of_fields hn (Opcode.field_of_selects h rfl)
  | readByte => exact formatA_of_fields hn (Opcode.field_of_selects h rfl)

/-- R58: a word that decodes to a command is that command's word. -/
theorem encode_of_decode {w : CmdWord} {i : Instr} (h : decode w = .command i) : encode i = w := by
  obtain ⟨o, ho, hd⟩ | ⟨-, hd⟩ := decode_cases w
  · obtain rfl : o.operands w = i := Verdict.command.inj (hd.symm.trans h)
    exact encode_operands ho
  · simp [hd] at h

/-- Settles O3: the encoder inverts the decoder, and each row's mask covers its reserved field. -/
theorem noBitOfAWordIsIgnored : Obligations.NoBitOfAWordIsIgnored := by
  refine ⟨fun w i => encode_of_decode, fun w h => ?_⟩
  obtain ⟨ho, hf⟩ | ⟨ho, hf⟩ | ⟨ho | ho | ho, hf⟩ | ⟨ho, hf⟩ | ⟨ho, hf⟩ := h
  · exact decode_illegal_of_reserved .encode 8 48 ho hf rfl rfl
  · exact decode_illegal_of_reserved .setPixel 24 8 ho hf rfl rfl
  · exact decode_illegal_of_reserved .clear 0 56 ho hf rfl rfl
  · exact decode_illegal_of_reserved .render 0 56 ho hf rfl rfl
  · exact decode_illegal_of_reserved .release 0 56 ho hf rfl rfl
  · exact decode_illegal_of_reserved .readReg 8 48 ho hf rfl rfl
  · exact decode_illegal_of_reserved .readByte 32 24 ho hf rfl rfl

/-! ### The assembler (R71) -/

theorem fitsField_iff (bits n : Nat) : fitsField bits n = true ↔ n < 2 ^ bits := decide_eq_true_iff

/-- The two ranges of an index literal are one: `-2^23` up to `2^24 - 1`. -/
theorem fitsIndex_iff (k : Int) : fitsIndex k = true ↔ -(2 ^ 23) ≤ k ∧ k < 2 ^ 24 := by
  simp only [fitsIndex, Bool.or_eq_true, Bool.and_eq_true, decide_eq_true_eq]
  omega

theorem wellFormed_init (n sw r : Nat) :
    (Asm.init n sw r).wellFormed = true ↔ n < 2 ^ 24 ∧ sw < 2 ^ 8 ∧ r < 2 ^ 24 := by
  rw [Asm.wellFormed, Bool.and_eq_true, Bool.and_eq_true, fitsField_iff, fitsField_iff, fitsField_iff, and_assoc]

theorem wellFormed_setPixel (k : Int) (r g b : Nat) :
    (Asm.setPixel k r g b).wellFormed = true ↔ fitsIndex k = true ∧ r < 2 ^ 8 ∧ g < 2 ^ 8 ∧ b < 2 ^ 8 := by
  simp only [Asm.wellFormed, Bool.and_eq_true, fitsField_iff, and_assoc]

/-- A term whose operands all fit assembles to a word that decodes to the term's command. -/
theorem assemble_of_wellFormed {a : Asm} (h : a.wellFormed = true) :
    ∃ w, assemble a = some w ∧ decode w = .command (asmInstr a) :=
  ⟨encode (asmInstr a), if_pos h, decode_encode _⟩

/-- A term with an operand that does not fit is not assembled. -/
theorem assemble_eq_none {a : Asm} (h : ¬ a.wellFormed = true) : assemble a = none := if_neg h

/-- Terms that fit alike and stand for one command assemble alike. -/
theorem assemble_congr {a b : Asm} (hf : a.wellFormed = b.wellFormed) (hi : asmInstr a = asmInstr b) :
    assemble a = assemble b := by
  rw [assemble, assemble, hf, hi]

/-- An unsigned operand that fits its field is kept. -/
theorem toNat_ofNat_of_fits {bits n : Nat} (h : n < 2 ^ bits) : (BitVec.ofNat bits n).toNat = n := by
  rw [BitVec.toNat_ofNat, Nat.mod_eq_of_lt h]

/-- An index that fits is kept if it is not negative, and `-k` is the field `2^24 - k`. -/
theorem toNat_ofInt_of_fits {k : Int} (hl : -(2 ^ 23) ≤ k) (hu : k < 2 ^ 24) :
    ((BitVec.ofInt 24 k).toNat : Int) = if k < 0 then 2 ^ 24 + k else k := by
  rw [BitVec.toNat_ofInt]
  split <;> omega

/-- A form with one unsigned operand of `bits` bits: a larger literal is refused, any other is kept. -/
theorem assemble_operand (bits : Nat) (form : Nat → Asm) (command : BitVec bits → Instr)
    (hf : ∀ n, (form n).wellFormed = fitsField bits n) (hi : ∀ n, asmInstr (form n) = command (BitVec.ofNat bits n))
    (n : Nat) : (2 ^ bits ≤ n → assemble (form n) = none) ∧
      (n < 2 ^ bits → ∃ w x, assemble (form n) = some w ∧ decode w = .command (command x) ∧ x.toNat = n) := by
  have hw : (form n).wellFormed = true ↔ n < 2 ^ bits := by rw [hf, fitsField_iff]
  refine ⟨fun h => assemble_eq_none (mt hw.1 (Nat.not_lt.2 h)), fun h => ?_⟩
  obtain ⟨w, ha, hd⟩ := assemble_of_wellFormed (hw.2 h)
  exact ⟨w, _, ha, hi n ▸ hd, toNat_ofNat_of_fits h⟩

theorem assemble_init (n sw r : Nat) : (2 ^ 24 ≤ n ∨ 2 ^ 8 ≤ sw ∨ 2 ^ 24 ≤ r → assemble (.init n sw r) = none) ∧
    (n < 2 ^ 24 → sw < 2 ^ 8 → r < 2 ^ 24 → ∃ w p x q, assemble (.init n sw r) = some w ∧
      decode w = .command (.init p x q) ∧ p.toNat = n ∧ x.toNat = sw ∧ q.toNat = r) := by
  have hf := wellFormed_init n sw r
  refine ⟨fun h => assemble_eq_none (mt hf.1 (by omega)), fun hn hs hr => ?_⟩
  obtain ⟨w, hw, hd⟩ := assemble_of_wellFormed (hf.2 ⟨hn, hs, hr⟩)
  exact ⟨w, _, _, _, hw, hd, toNat_ofNat_of_fits hn, toNat_ofNat_of_fits hs, toNat_ofNat_of_fits hr⟩

theorem assemble_setPixel (k : Int) (r g b : Nat) :
    (k < -(2 ^ 23) ∨ 2 ^ 24 ≤ k ∨ 2 ^ 8 ≤ r ∨ 2 ^ 8 ≤ g ∨ 2 ^ 8 ≤ b → assemble (.setPixel k r g b) = none) ∧
    (-(2 ^ 23) ≤ k → k < 2 ^ 24 → r < 2 ^ 8 → g < 2 ^ 8 → b < 2 ^ 8 → ∃ w j x y z,
      assemble (.setPixel k r g b) = some w ∧ decode w = .command (.setPixel j x y z) ∧
      (j.toNat : Int) = (if k < 0 then 2 ^ 24 + k else k) ∧ x.toNat = r ∧ y.toNat = g ∧ z.toNat = b) := by
  have hf := wellFormed_setPixel k r g b
  rw [fitsIndex_iff] at hf
  refine ⟨fun h => assemble_eq_none (mt hf.1 (by omega)), fun hl hu hr hg hb => ?_⟩
  obtain ⟨w, hw, hd⟩ := assemble_of_wellFormed (hf.2 ⟨⟨hl, hu⟩, hr, hg, hb⟩)
  exact ⟨w, _, _, _, _, hw, hd, toNat_ofInt_of_fits hl hu, toNat_ofNat_of_fits hr, toNat_ofNat_of_fits hg,
    toNat_ofNat_of_fits hb⟩

/-- The index `-k` fits if `2^24 - k` does, and is the same field. -/
theorem assemble_setPixel_neg {k : Nat} (r g b : Nat) (h1 : 1 ≤ k) (h2 : k ≤ 2 ^ 23) :
    assemble (.setPixel (-(k : Int)) r g b) = assemble (.setPixel (2 ^ 24 - (k : Int)) r g b) := by
  have hi : BitVec.ofInt 24 (-(k : Int)) = BitVec.ofInt 24 (2 ^ 24 - (k : Int)) := by
    refine BitVec.eq_of_toNat_eq ?_
    rw [BitVec.toNat_ofInt, BitVec.toNat_ofInt]
    omega
  refine assemble_congr ?_ (by rw [asmInstr, asmInstr, hi])
  rw [Bool.eq_iff_iff, wellFormed_setPixel, wellFormed_setPixel, fitsIndex_iff, fitsIndex_iff]
  omega

/-- A register's name fits, and so does its number of R35, which is the same field. -/
theorem assemble_readReg_name (r : Config.Reg) :
    assemble (.readReg (.name r)) = assemble (.readReg (.number (regNumber r).toNat)) := by
  refine assemble_congr ((fitsField_iff 8 _).2 (regNumber r).isLt).symm ?_
  rw [asmInstr, asmInstr, asmRegNumber, asmRegNumber, BitVec.ofNat_toNat, BitVec.setWidth_eq]

/-- Settles O6, form by form; the names listed are those of R35 with their numbers. -/
theorem assemblerNeverTruncates : Obligations.AssemblerNeverTruncates := by
  refine ⟨assemble_operand 8 .encode .encode (fun _ => rfl) (fun _ => rfl), assemble_init, assemble_setPixel,
    fun _ => assemble_setPixel_neg, assemble_of_wellFormed (a := .clear) rfl, assemble_of_wellFormed (a := .render) rfl,
    assemble_of_wellFormed (a := .release) rfl,
    assemble_operand 8 (.readReg ∘ .number) .readReg (fun _ => rfl) (fun _ => rfl), ?_,
    assemble_operand 32 .readByte .readByte (fun _ => rfl) (fun _ => rfl)⟩
  have hnum : ∀ x ∈ [(Config.Reg.state, 0), (.pixelCount, 1), (.symbolWidth, 2), (.resetBytes, 3), (.pixelBytes, 4),
      (.totalBytes, 5), (.bufCapacity, 6), (.strictIndex, 7), (.swSupported, 8)], (regNumber x.1).toNat = x.2 := by
    decide
  exact fun x hx => hnum x hx ▸ assemble_readReg_name x.1

end Sys2Proof

namespace Sys2Proof.Machine

/-! ### The answers to an illegal word (R68) and to the index -1 (R71) -/

/-- The answer to an illegal word (R68, R128). -/
theorem step_of_illegal {s : State} {w : CmdWord} {rest : List Input} {why : IllegalWord} (hr : s.isRendering = false)
    (hi : s.inputs = .command w :: rest) (hd : decode w = .illegal why) :
    step s = .next (respond .illegalCommand 0 { s with inputs := rest }) := by
  rw [step_of_ready hr, stepReady, hi]
  dsimp only
  rw [accept, hd, raise_eq_respond]

/-- Settles O4: a word is illegal where its opcode has no row or the row of its opcode does not select it, and
its step is the one response. -/
theorem illegalWordsAnswerIllegalCommand : Obligations.IllegalWordsAnswerIllegalCommand := by
  refine ⟨fun w => decode_illegal_of_unassigned, fun w ⟨o, hn, hs⟩ => ?_, decode_illegal_of_unassigned (.inl rfl),
    fun s w rest why => step_of_illegal⟩
  exact decode_illegal_of_number hn (mt (o.selects_iff w).1 hs)

/-- `SET_PIXEL` past the last pixel changes nothing; the policy decides the status (R94). -/
theorem execSetPixel_of_outOfRange {i : Count} {s : State} (r g b : Byte) (hc : s.lifecycle ≠ .unconfigured)
    (hi : s.pixelCount.toNat ≤ i.toNat) :
    execSetPixel i r g b s = .next (respond (if s.build.strictIndex then .indexOutOfRange else .ok) 0 s) := by
  have hn : ¬ s.indexInRange i = true := by simpa [State.indexInRange] using hi
  rw [execSetPixel, if_pos ((configured_eq_true_iff s).2 hc), if_neg hn]
  split <;> rfl

/-- Settles O19: a 24-bit `PIXEL_COUNT` is at most `0xFFFFFF`, the field of `-1`. -/
theorem indexMinusOneIsNeverValid : Obligations.IndexMinusOneIsNeverValid := by
  intro r g b s hc
  have hp : s.pixelCount.toNat ≤ (BitVec.ofInt 24 (-1)).toNat := Nat.le_of_lt_succ s.pixelCount.isLt
  exact ⟨_, execSetPixel_of_outOfRange r g b hc hp⟩

/-! ### `DATA` (R59) -/

/-- A byte read as a 1-byte value is the byte. -/
theorem toNat_memRead_one (m : Memory) (a : Nat) : (memRead m a 1).toNat = (Memory.read m a).toNat := by
  have h : (memRead m a 1).extractLsb' 0 8 = Memory.read m a := extractLsb'_memRead m a Nat.one_pos
  rw [← h]
  exact congrArg BitVec.toNat BitVec.extractLsb'_eq_self.symm

/-- The one response that `respond` adds. -/
theorem eq_of_respond_responses {s : State} {st st' : Status} {d d' : Data}
    (h : (respond st' d' s).responses = s.responses ++ [⟨st, d⟩]) : st = st' ∧ d = d' := by
  simpa [eq_comm] using h

/-- The response a command puts out has `DATA` 0, or is `OK` to a command that reads, with what it reads. -/
theorem exec_data_cases {i : Instr} {s t : State} {st : Status} {d : Data} (h : exec i s = .next t)
    (hr : t.responses = s.responses ++ [⟨st, d⟩]) :
    d = 0 ∨
      (st = .ok ∧ ∃ v, i = .encode v ∧ d.toNat = (enc v).toNat) ∨
      (st = .ok ∧ ∃ n r, i = .readReg n ∧ regOfNumber n = some r ∧ d = readRegister s r) ∨
      (st = .ok ∧ ∃ a, i = .readByte a ∧ d.toNat = (Memory.read s.fb a.toNat).toNat) := by
  cases i with
  | encode v =>
    cases h
    obtain ⟨rfl, rfl⟩ := eq_of_respond_responses hr
    exact .inr (.inl ⟨rfl, v, rfl, BitVec.toNat_setWidth_of_le (by decide)⟩)
  | readReg n =>
    obtain ⟨r, hn, rfl⟩ | ⟨-, rfl⟩ := execReadReg_cases h <;> obtain ⟨rfl, rfl⟩ := eq_of_respond_responses hr
    · exact .inr (.inr (.inl ⟨rfl, n, r, rfl, hn, rfl⟩))
    · exact .inl rfl
  | readByte a =>
    obtain ⟨-, rfl⟩ | ⟨-, -, rfl⟩ | ⟨-, -, rfl⟩ := execReadByte_cases h <;>
      obtain ⟨rfl, rfl⟩ := eq_of_respond_responses hr
    · exact .inl rfl
    · exact .inl rfl
    · have hw : ((memRead s.fb a.toNat 1).setWidth 32).toNat = (memRead s.fb a.toNat 1).toNat :=
        BitVec.toNat_setWidth_of_le (by decide)
      exact .inr (.inr (.inr ⟨rfl, a, rfl, hw.trans (toNat_memRead_one s.fb a.toNat)⟩))
  | init p w r =>
    obtain ⟨-, rfl⟩ | ⟨-, rfl⟩ := execInit_cases h <;> exact .inl (eq_of_respond_responses hr).2
  | setPixel i r g b =>
    obtain ⟨-, rfl⟩ | ⟨-, -, rfl⟩ | ⟨-, -, rfl⟩ := execSetPixel_cases h <;> exact .inl (eq_of_respond_responses hr).2
  | clear =>
    obtain ⟨-, rfl⟩ | ⟨-, rfl⟩ := execClear_cases h <;> exact .inl (eq_of_respond_responses hr).2
  | render =>
    obtain ⟨-, rfl⟩ | ⟨-, rfl⟩ := execRender_cases h
    · exact .inl (eq_of_respond_responses hr).2
    · simp at hr
  | release =>
    obtain ⟨-, rfl⟩ | ⟨-, rfl⟩ := execRelease_cases h <;> exact .inl (eq_of_respond_responses hr).2

/-- The response an event puts out has `DATA` 0, or reports an error that the transport answers to the write in flight
(R109). -/
theorem onEvent_data_cases {e : Event} {s : State} {st : Status} {d : Data}
    (hr : (onEvent e s).responses = s.responses ++ [⟨st, d⟩]) :
    d = 0 ∨ (st = .transmitError ∧ ∃ x, d = Config.terrCode x ∧ e = .answer s.txlog.length (.err x)) := by
  cases e with
  | reset => simp [onEvent] at hr
  | answer call a =>
    rw [onEvent] at hr
    obtain ⟨frame, -, rfl, ht⟩ | ⟨-, ht⟩ := onAnswer_cases call a s <;> rw [ht] at hr
    · cases a with
      | ok => exact .inl (eq_of_respond_responses hr).2
      | err x =>
        obtain ⟨rfl, rfl⟩ := eq_of_respond_responses hr
        exact .inr ⟨rfl, x, rfl, rfl⟩
    · simp at hr

/-- The registers do not hold what the port offers. -/
@[simp] theorem readRegister_with_inputs (s : State) (is : List Input) (r : Config.Reg) :
    readRegister { s with inputs := is } r = readRegister s r := by
  cases r <;> rfl

/-- Settles O43: the response is from an event, from a command or to an illegal word, and each bounds its `DATA`. -/
theorem dataIsZeroButInFourCases : Obligations.DataIsZeroButInFourCases := by
  intro s t st d h hr hd
  obtain ⟨e, left, he, rfl, -⟩ | ⟨-, -, rfl⟩ | ⟨w, rest, i, hs, hi, hw, hx⟩ | ⟨w, rest, why, -, -, -, rfl⟩ :=
    step_cases h
  · obtain hz | ⟨hst, x, hx, rfl⟩ := onEvent_data_cases (s := { s with inputs := left }) hr
    · exact absurd hz hd
    · exact .inr (.inr (.inr ⟨hst, x, hx, he⟩))
  · simp at hr
  · have ha : s.accepts i := ⟨hs, w, rest, hi, hw⟩
    obtain hz | ⟨hst, v, rfl, hv⟩ | ⟨hst, n, r, rfl, hn, hv⟩ | ⟨hst, a, rfl, hv⟩ := exec_data_cases hx hr
    · exact absurd hz hd
    · exact .inl ⟨hst, v, ha, hv⟩
    · exact .inr (.inl ⟨hst, n, r, ha, hn, by rw [hv, readRegister_with_inputs]⟩)
    · exact .inr (.inr (.inl ⟨hst, a, ha, hv⟩))
  · exact absurd (eq_of_respond_responses (s := { s with inputs := rest }) hr).2 hd

end Sys2Proof.Machine

/-! SUPPORT. The BitEncoder (40_bit_encoder.md): a channel code is its eight symbols, so `DEC` inverts `ENC` (R73, R80);
the bits of `ENC` and of `spread` (R74); the symbols on the line (R40, R73); and `ENCODE` (R78). -/

namespace Sys2Proof.Machine

/-! ### A channel code as its eight symbols (R73, R80) -/

/-- R73: a symbol is high, its bit, low. -/
theorem sym_bits (b : Bool) : (sym b).getLsbD 2 = true ∧ (sym b).getLsbD 1 = b ∧ (sym b).getLsbD 0 = false := by
  cases b <;> decide

/-- R82: a 3-bit pattern is a symbol where it is the symbol of its middle bit. -/
theorem isSymbol_iff_eq_sym : ∀ s : BitVec 3, isSymbol s = true ↔ s = sym (s.getLsbD 1) := by decide

theorem isSymbol_iff {s : BitVec 3} : isSymbol s = true ↔ s = 0b100 ∨ s = 0b110 := by simp [isSymbol]

@[simp] theorem isSymbol_sym (b : Bool) : isSymbol (sym b) = true := by cases b <;> decide

/-- R80: bit `k` of the symbol at `j` is bit `3j + k` of the code. -/
theorem getLsbD_symbolAt (x : ChannelCode) (j : Nat) {k : Nat} (hk : k < 3) :
    (symbolAt x j).getLsbD k = x.getLsbD (3 * j + k) := by
  simp [symbolAt, hk]

/-- Two codes with the same eight symbols are equal. -/
theorem channelCode_ext {x y : ChannelCode} (h : ∀ j, j < 8 → symbolAt x j = symbolAt y j) : x = y := by
  refine BitVec.eq_of_getLsbD_eq fun i hi => ?_
  have hk : i % 3 < 3 := Nat.mod_lt i (by decide)
  rw [← Nat.div_add_mod i 3, ← getLsbD_symbolAt x _ hk, ← getLsbD_symbolAt y _ hk, h (i / 3) (by omega)]

/-- R73: the symbol of `ENC(v)` at `j` is that of bit `j` of `v`. -/
theorem symbolAt_enc (v : Byte) {j : Nat} (hj : j < 8) : symbolAt (enc v) j = sym (v.getLsbD j) := by
  unfold symbolAt enc
  interval_cases j <;> simp only [Nat.reduceMul, Nat.reduceLeDiff, Nat.reduceSub, BitVec.extractLsb'_append_eq_of_le,
    BitVec.extractLsb'_append_eq_right, BitVec.extractLsb'_eq_self]

/-- R80: `DEC` takes bit `j` from the middle of the symbol at `j`. -/
theorem getLsbD_middleBits (x : ChannelCode) {j : Nat} (hj : j < 8) :
    (middleBits x).getLsbD j = (symbolAt x j).getLsbD 1 := by
  rw [getLsbD_symbolAt x j (by decide), middleBits]
  interval_cases j <;> simp only [BitVec.getLsbD_append, BitVec.getLsbD_ofBool] <;> rfl

/-- R80: the middle bits of `ENC(v)` are those of `v`. -/
theorem middleBits_enc (v : Byte) : middleBits (enc v) = v := by
  refine BitVec.eq_of_getLsbD_eq fun j hj => ?_
  obtain ⟨-, hmid, -⟩ := sym_bits (v.getLsbD j)
  rw [getLsbD_middleBits _ hj, symbolAt_enc v hj, hmid]

/-- `DEC` answers where all eight patterns are symbols, and then the middle bits (R80). -/
theorem dec_eq_some_iff {x : ChannelCode} {v : Byte} :
    dec x = some v ↔ (∀ j, j < 8 → isSymbol (symbolAt x j) = true) ∧ middleBits x = v := by
  simp [dec]

/-- R80: `DEC` answers a value on its encoding and on nothing else. -/
theorem dec_eq_some_iff_eq_enc {x : ChannelCode} {v : Byte} : dec x = some v ↔ x = enc v := by
  rw [dec_eq_some_iff]
  constructor
  · rintro ⟨hsym, rfl⟩
    refine channelCode_ext fun j hj => ?_
    calc symbolAt x j = sym ((symbolAt x j).getLsbD 1) := (isSymbol_iff_eq_sym _).1 (hsym j hj)
      _ = symbolAt (enc (middleBits x)) j := by rw [symbolAt_enc _ hj, getLsbD_middleBits x hj]
  · rintro rfl
    exact ⟨fun j hj => by rw [symbolAt_enc v hj, isSymbol_sym], middleBits_enc v⟩

@[simp] theorem dec_enc (v : Byte) : dec (enc v) = some v := dec_eq_some_iff_eq_enc.2 rfl

/-- R80: `ENC` has a left inverse. -/
theorem enc_injective : Function.Injective enc := fun v v' h => Option.some.inj (by rw [← dec_enc v, h, dec_enc])

/-- R80: one pattern that is no symbol leaves nothing to decode. -/
theorem dec_eq_none_of_not_isSymbol {x : ChannelCode} {j : Nat} (hj : j < 8)
    (hx : isSymbol (symbolAt x j) ≠ true) : dec x = none :=
  Option.eq_none_iff_forall_ne_some.2 fun _ hv => hx ((dec_eq_some_iff.1 hv).1 j hj)

/-- Settles O10: the symbols of a code fix it, and each is the symbol of the bit that `DEC` takes from it. -/
theorem decInvertsEnc : Obligations.DecInvertsEnc := by
  refine ⟨dec_enc, fun _ _ h => enc_injective h, fun x ⟨j, hj, h0, h1⟩ => ?_, fun _ _ => dec_eq_some_iff_eq_enc.1⟩
  exact dec_eq_none_of_not_isSymbol hj fun hs => (isSymbol_iff.1 hs).elim h0 h1

/-! ### The bits of `ENC` and its closed form (R74) -/

/-- R74: the bits of `ENC(v)`, three to a bit of `v`. -/
theorem enc_bits (v : Byte) {j : Nat} (hj : j < 8) :
    (enc v).getLsbD (3 * j + 2) = true ∧ (enc v).getLsbD (3 * j + 1) = v.getLsbD j ∧
      (enc v).getLsbD (3 * j) = false := by
  have h := sym_bits (v.getLsbD j)
  rwa [← symbolAt_enc v hj, getLsbD_symbolAt _ _ (by decide), getLsbD_symbolAt _ _ (by decide),
    getLsbD_symbolAt _ _ (by decide)] at h

/-- A sum of bits at the multiples of 3 does not carry. -/
theorem sum_bits_lt (f : Nat → Bool) (n : Nat) :
    ((List.range n).map fun j => (f j).toNat * 2 ^ (3 * j)).sum < 2 ^ (3 * n) := by
  induction n with
  | zero => simp
  | succ n ih =>
    have hb : (f n).toNat * 2 ^ (3 * n) ≤ 1 * 2 ^ (3 * n) := Nat.mul_le_mul_right _ (Bool.toNat_le _)
    rw [List.sum_range_succ, Nat.mul_succ, pow_add]
    omega

/-- Its binary digits are those bits, at the multiples of 3. -/
theorem testBit_sum_bits (f : Nat → Bool) (n k : Nat) :
    ((List.range n).map fun j => (f j).toNat * 2 ^ (3 * j)).sum.testBit k =
      (decide (k < 3 * n ∧ k % 3 = 0) && f (k / 3)) := by
  induction n with
  | zero => simp
  | succ n ih =>
    rw [List.sum_range_succ, mul_comm, add_comm, Nat.testBit_two_pow_mul_add _ (sum_bits_lt f n), ih]
    split
    next hk => simp [hk, show k < 3 * (n + 1) by omega]
    next hk =>
      rw [Nat.testBit_bool_toNat]
      by_cases h0 : k - 3 * n = 0
      · simp [show k = 3 * n by omega]
      · rw [decide_eq_false h0, decide_eq_false (by omega)]; rfl

/-- R74: bit `3j` of `spread(v)` is bit `j` of `v`, and its other bits are 0. -/
theorem getLsbD_spread (v : Byte) (k : Nat) :
    (spread v).getLsbD k = (decide (k < 24 ∧ k % 3 = 0) && v.getLsbD (k / 3)) := by
  rw [spread, BitVec.getLsbD_ofNat, testBit_sum_bits v.getLsbD 8 k]
  by_cases hk : k < 24 <;> simp [hk]

/-- R74: shifted left by one, `spread(v)` holds bit `j` of `v` in the middle of the pattern at `j`. -/
theorem getLsbD_spread_shiftLeft (v : Byte) {j k : Nat} (hj : j < 8) (hk : k < 3) :
    (spread v <<< 1).getLsbD (3 * j + k) = (decide (k = 1) && v.getLsbD j) := by
  rw [BitVec.getLsbD_shiftLeft, getLsbD_spread]
  by_cases h1 : k = 1
  · simp [h1, show 3 * j + 1 < 24 by omega, show 3 * j < 24 by omega]
  · have hlow : 3 * j + k < 1 ∨ (3 * j + k - 1) % 3 ≠ 0 := by omega
    rcases hlow with hlow | hlow <;> simp [h1, hlow]

/-- R74: `ENC` in closed form, bit by bit; the constant is the encoding of 0 (R79). -/
theorem enc_eq_or_spread (v : Byte) : enc v = encBlack ||| (spread v <<< 1) := by
  have hblack : encBlack = enc 0 := rfl
  refine BitVec.eq_of_getLsbD_eq fun i hi => ?_
  obtain ⟨j, k, hj, hk, rfl⟩ : ∃ j k, j < 8 ∧ k < 3 ∧ i = 3 * j + k := ⟨i / 3, i % 3, by omega, by omega, by omega⟩
  obtain ⟨hv2, hv1, hv0⟩ := enc_bits v hj
  obtain ⟨hz2, hz1, hz0⟩ := enc_bits 0 hj
  rw [hblack, BitVec.getLsbD_or, getLsbD_spread_shiftLeft v hj hk]
  interval_cases k
  · rw [Nat.add_zero, hv0, hz0]; rfl
  · rw [hv1, hz1, BitVec.ofNat_eq_ofNat, BitVec.getLsbD_zero]; rfl
  · rw [hv2, hz2]; rfl

/-- Settles O9: the bit equations by the symbol at `j`, the closed form by all eight symbols. -/
theorem encBitEquations : Obligations.EncBitEquations := ⟨fun v _ => enc_bits v, enc_eq_or_spread⟩

/-- Settles O11: the symbols are those of the bits; a zero slot has none. -/
theorem encProducesSymbolsOnly : Obligations.EncProducesSymbolsOnly := by
  refine ⟨fun v j hj => isSymbol_iff.1 ?_, dec_eq_none_of_not_isSymbol (j := 0) (by decide) (by decide), rfl⟩
  rw [symbolAt_enc v hj, isSymbol_sym]

/-! ### The channel bytes on the line (R40, R73) -/

@[simp] theorem length_lineBits (bytes : List Byte) : (lineBits bytes).length = 8 * bytes.length := by
  simp [lineBits, List.length_flatMap, mul_comm]

/-- R40: the line carries a value's bits most significant first. -/
theorem lineBits_bytesOf (n : Nat) (v : BitVec (8 * n)) :
    lineBits (bytesOf n v) = (List.range (8 * n)).map v.getMsbD := by
  refine List.ext_getElem? fun k => ?_
  by_cases hk : k < 8 * n
  · rw [getElem?_lineBits (getElem?_bytesOf v (by omega))]
    simp only [List.getElem?_map, List.getElem?_range hk, Option.map_some, BitVec.getMsbD, BitVec.getLsbD_extractLsb']
    simp [hk, show 7 - k % 8 < 8 by omega, show 8 * (n - 1 - k / 8) + (7 - k % 8) = 8 * n - 1 - k by omega]
  · rw [List.getElem?_eq_none (by simpa using hk), List.getElem?_eq_none (by simpa using hk)]

/-- The bits of a code, most significant first, are its patterns from 7 down to 0. -/
theorem lineBits_bytesOf_three (x : ChannelCode) : lineBits (bytesOf 3 x) =
    (List.range 8).flatMap fun k =>
      [x.getLsbD (3 * (7 - k) + 2), x.getLsbD (3 * (7 - k) + 1), x.getLsbD (3 * (7 - k))] :=
  (lineBits_bytesOf 3 x).trans rfl

theorem symbolBits_eq (b : Bool) : symbolBits b = [true, b, false] := by cases b <;> rfl

/-- R73: the line carries the symbols of the value's bits, from bit 7 down to bit 0. -/
theorem lineBits_channelBytes (v : Byte) :
    lineBits (channelBytes v) = (List.range 8).flatMap fun k => symbolBits (v.getLsbD (7 - k)) := by
  rw [channelBytes, lineBits_bytesOf_three]
  refine List.flatMap_congr fun k _ => ?_
  obtain ⟨h2, h1, h0⟩ := enc_bits v (show 7 - k < 8 by omega)
  rw [h2, h1, h0, symbolBits_eq]

/-- Settles O12: the symbols in the order of the line, written out. -/
theorem channelBytesCarryTheSymbols : Obligations.ChannelBytesCarryTheSymbols := by
  intro v
  rw [lineBits_channelBytes]
  simp [List.range, List.range.loop]

/-! ### `ENCODE` (R78) -/

/-- Settles O14: `ENCODE` is the one `respond`, and 24 bits lose nothing in 32. -/
theorem encodeAnswersTheEncoding : Obligations.EncodeAnswersTheEncoding :=
  fun _ _ => ⟨_, BitVec.toNat_setWidth_of_le (by decide), rfl⟩

end Sys2Proof.Machine

/-! SUPPORT. The frame-buffer commands (41_framebuffer.md): what each answers where its rule lets it act, and where not
(R85, R92, R94, R96, R99); the zero fill as the loop of R85; the window of a pixel (R93, R95, R104); and `CLEAR` as the
blackening of every pixel, in any order (R97, R98). -/

namespace Sys2Proof.Machine

/-! ### The answers of `INIT`, `SET_PIXEL`, `CLEAR` and `RELEASE` -/

section answers
variable {s : State}

/-- `INIT` with one of its four causes (R85). -/
theorem execInit_of_fails {p : Count} {w : BitVec 8} {r : Count} (h : initFails p w r s = true) :
    execInit p w r s = .next (respond .configError 0 s) := if_pos h

/-- `INIT` with none of them (R85). -/
theorem execInit_of_succeeds {p : Count} {w : BitVec 8} {r : Count} (h : initFails p w r s = false) :
    execInit p w r s = .next (respond .ok 0
      { s with pixelCount := p, symbolWidth := w, resetBytes := r, fb := Memory.zeroFill s.fb (initTotal p r),
               lifecycle := .idle }) := if_neg (ne_true_of_eq_false h)

/-- `SET_PIXEL` within the buffer (R93). -/
theorem execSetPixel_of_inRange {i : Count} (r g b : Byte) (hc : s.lifecycle ≠ .unconfigured)
    (hi : i.toNat < s.pixelCount.toNat) :
    execSetPixel i r g b s = .next (respond .ok 0 { s with fb := writePixel s.fb i.toNat r g b }) := by
  have hin : s.indexInRange i = true := decide_eq_true hi
  rw [execSetPixel, if_pos ((configured_eq_true_iff s).2 hc), if_pos hin]

/-- `CLEAR` on a block with a buffer (R96). -/
theorem execClear_of_configured (hc : s.lifecycle ≠ .unconfigured) :
    execClear s = .next (respond .ok 0 { s with fb := clearPixels s.fb s.pixelCount.toNat }) :=
  if_pos ((configured_eq_true_iff s).2 hc)

/-- `CLEAR` without one (R96). -/
theorem execClear_of_unconfigured (hl : s.lifecycle = .unconfigured) :
    execClear s = .next (respond .notConfigured 0 s) :=
  if_neg (ne_true_of_eq_false ((configured_eq_false_iff s).2 hl))

/-- `RELEASE` on a block with a buffer (R99). -/
theorem execRelease_of_configured (hc : s.lifecycle ≠ .unconfigured) :
    execRelease s = .next (respond .ok 0
      { s with pixelCount := 0, symbolWidth := 0, resetBytes := 0, fb := [], lifecycle := .unconfigured }) :=
  if_pos ((configured_eq_true_iff s).2 hc)

/-- `RELEASE` without one (R99). -/
theorem execRelease_of_unconfigured (hl : s.lifecycle = .unconfigured) :
    execRelease s = .next (respond .notConfigured 0 s) :=
  if_neg (ne_true_of_eq_false ((configured_eq_false_iff s).2 hl))

end answers

/-! ### `INIT` and its zero fill (R85, R86, R88) -/

/-- Settles O15: the four causes are `initFails`; without one the cells of the new buffer, and no others, have a value,
which is the zero fill. -/
theorem initFollowsItsRule : Obligations.InitFollowsItsRule := by
  refine ⟨fun p w r s hl hp hw hc => ?_, fun p w r s h => execInit_of_fails ((initFails_eq_true_iff p w r s).2 h)⟩
  have hf : initFails p w r s = false := (initFails_eq_false_iff p w r s).2 ⟨hl, hp, hw, hc⟩
  have hx := execInit_of_succeeds hf
  refine ⟨_, hx, rfl, fun a ha => ?_, fun a ha => ⟨?_, ?_⟩⟩
  · exact (execInit_fbByte hl hx a).trans (if_pos ⟨hf, ha⟩)
  · exact (execInit_fbByte hl hx a).trans (if_neg fun h => Nat.not_lt.2 ha h.2)
  · exact (read_zeroFill s.fb (initTotal p r) a).trans (if_neg (Nat.not_lt.2 ha))

/-- One more turn of the loop fills one more byte (R85). -/
theorem zeroFill_succ {m : Memory} (h : Memory.wf m) (n : Nat) :
    Memory.zeroFill m (n + 1) = memWrite (Memory.zeroFill m n) n 1 0x00 := by
  have hn := wf_zeroFill h n
  have hbyte : memWrite (Memory.zeroFill m n) n 1 0x00 = Memory.write (Memory.zeroFill m n) n 0 := rfl
  rw [hbyte]
  refine memory_ext (wf_zeroFill h (n + 1)) (wf_write hn n 0) fun x => ?_
  rw [read_write hn, read_zeroFill, read_zeroFill]
  by_cases hx : x = n
  · rw [if_pos hx, if_pos (by omega)]
  · rw [if_neg hx]
    exact if_congr (by omega) rfl rfl

/-- Settles O16, by induction on the number of turns. -/
theorem zeroFillIsTheLoopOfWrites : Obligations.ZeroFillIsTheLoopOfWrites := by
  intro m total h
  induction total with
  | zero => simp [Memory.zeroFill]
  | succ n ih => rw [List.range_succ, List.foldl_append, ih, zeroFill_succ h]; rfl

/-! ### `SET_PIXEL` (R93 to R95, R104) -/

/-- Settles O17: the shared pixel write stores its three slots and leaves the bytes outside them. -/
theorem setPixelWritesItsWindowOnly : Obligations.SetPixelWritesItsWindowOnly := by
  intro i r g b s hc hi hm
  obtain ⟨hg, hr, hb⟩ := memRead_writePixel hm i.toNat r g b
  exact ⟨_, execSetPixel_of_inRange r g b hc hi, rfl, hg, hr, hb,
    fun _ ha => read_writePixel_of_outside hm r g b ha, rfl⟩

/-- Settles O18: the policy chooses between the two statuses and nothing else. -/
theorem setPixelOutOfRangeChangesNothing : Obligations.SetPixelOutOfRangeChangesNothing := by
  intro i r g b s hc hi
  have hx := execSetPixel_of_outOfRange r g b hc hi
  refine ⟨fun h => ?_, fun h => ?_⟩ <;> (rw [h] at hx; exact hx)

/-- Whatever `SET_PIXEL` answers, it writes its pixel where it may, and else nothing. -/
theorem execSetPixel_effect {i : Count} {r g b : Byte} {s t : State} (h : execSetPixel i r g b s = .next t) :
    ∃ st, t = respond st 0 { s with
      fb := if s.lifecycle ≠ .unconfigured ∧ i.toNat < s.pixelCount.toNat then writePixel s.fb i.toNat r g b
            else s.fb } := by
  obtain ⟨hl, rfl⟩ | ⟨-, hi, rfl⟩ | ⟨hc, hi, rfl⟩ := execSetPixel_cases h
  · exact ⟨_, by rw [if_neg fun h => h.1 hl]⟩
  · have hout : ¬ (s.lifecycle ≠ .unconfigured ∧ i.toNat < s.pixelCount.toNat) := fun h => Nat.not_lt.2 hi h.2
    exact ⟨_, by rw [if_neg hout]⟩
  · exact ⟨_, by rw [if_pos ⟨hc, hi⟩]⟩

/-- The later write of a pixel covers the earlier one (R95). -/
theorem writePixel_writePixel {m : Memory} (h : Memory.wf m) (i : Nat) (r g b r' g' b' : Byte) :
    writePixel (writePixel m i r g b) i r' g' b' = writePixel m i r' g' b' := by
  have h1 := wf_writePixel h i r g b
  exact memory_ext (wf_writePixel h1 i r' g' b') (wf_writePixel h i r' g' b') fun _ =>
    read_writePixel_congr h1 h r' g' b' (read_writePixel_of_outside h r g b)

/-- Settles O20: a pixel's bytes do not depend on the memory they are written to, so a second write covers the first. -/
theorem theLastSetPixelWins : Obligations.TheLastSetPixelWins := by
  refine ⟨fun i r g b s s' t t' hc hc' hi hi' hm hm' ht ht' => ?_, fun i r g b r' g' b' s t u v hm ht hu hv => ?_⟩
  · obtain rfl := Host.Outcome.next.inj ((execSetPixel_of_inRange r g b hc hi).symm.trans ht)
    obtain rfl := Host.Outcome.next.inj ((execSetPixel_of_inRange r g b hc' hi').symm.trans ht')
    exact readBytes_congr fun x _ _ => read_writePixel_congr hm hm' r g b fun ho => by omega
  · obtain ⟨_, rfl⟩ := execSetPixel_effect ht
    obtain ⟨_, rfl⟩ := execSetPixel_effect hu
    obtain ⟨_, rfl⟩ := execSetPixel_effect hv
    by_cases hin : s.lifecycle ≠ .unconfigured ∧ i.toNat < s.pixelCount.toNat
    · simpa [hin] using writePixel_writePixel hm i.toNat r g b r' g' b'
    · simp [hin]

/-- Settles O21: the three slots hold encodings, which `DEC` inverts. -/
theorem pixelOperandsAreRecoverable : Obligations.PixelOperandsAreRecoverable := by
  intro i r g b s hc hi hm
  refine ⟨_, execSetPixel_of_inRange r g b hc hi, ?_, ?_, ?_⟩ <;> simp [channelSlot_writePixel hm]

/-! ### `CLEAR` (R96 to R98) -/

/-- Settles O22: `CLEAR` writes the encoding of 0, which is 0x924924 (R79), to the slots of all pixels. -/
theorem clearWritesBlackToEverySlot : Obligations.ClearWritesBlackToEverySlot := by
  refine ⟨fun s hc hm => ?_, fun s => execClear_of_unconfigured⟩
  refine ⟨_, execClear_of_configured hc, fun k hk => ?_, fun a ha => read_clearPixels_of_outside hm ha, rfl⟩
  exact (channelSlot_clearPixels hm _ k).trans (if_pos hk)

/-- The pixels of a list set to black, in its order. -/
def blacken (m : Memory) (pixels : List Nat) : Memory := pixels.foldl (fun m' i => writePixel m' i 0 0 0) m

/-- `CLEAR` blackens the pixels in rising order (R96). -/
theorem clearPixels_eq_blacken (m : Memory) (n : Nat) : clearPixels m n = blacken m (List.range n) := by
  induction n with
  | zero => rfl
  | succ n ih => rw [clearPixels, ih, List.range_succ, blacken, blacken, List.foldl_append]; rfl

theorem wf_blacken {m : Memory} (h : Memory.wf m) (pixels : List Nat) : Memory.wf (blacken m pixels) := by
  induction pixels generalizing m with
  | nil => exact h
  | cons i pixels ih => exact ih (wf_writePixel h i 0 0 0)

/-- A byte of a pixel that is blackened is black, whatever was there; any other byte stays. -/
theorem read_blacken {m : Memory} (h : Memory.wf m) (pixels : List Nat) (x : Nat) :
    Memory.read (blacken m pixels) x =
      if x / 9 ∈ pixels then Memory.read (writePixel m (x / 9) 0 0 0) x else Memory.read m x := by
  induction pixels generalizing m with
  | nil => rfl
  | cons i pixels ih =>
    have hi := wf_writePixel h i 0 0 0
    have hstep : blacken m (i :: pixels) = blacken (writePixel m i 0 0 0) pixels := rfl
    rw [hstep, ih hi]
    by_cases hmem : x / 9 ∈ pixels
    · rw [if_pos hmem, if_pos (List.mem_cons_of_mem i hmem)]
      exact read_writePixel_congr hi h 0 0 0 fun ho => by omega
    · rw [if_neg hmem]
      by_cases hx : x / 9 = i
      · rw [if_pos (List.mem_cons.2 (.inl hx)), hx]
      · rw [if_neg (by simp [hx, hmem]), read_writePixel_of_outside h 0 0 0 (by omega)]

/-- Neither the order nor a repetition of the pixels matters (R97). -/
theorem blacken_congr {m : Memory} (h : Memory.wf m) {pixels pixels' : List Nat}
    (hmem : ∀ i, i ∈ pixels ↔ i ∈ pixels') : blacken m pixels = blacken m pixels' :=
  memory_ext (wf_blacken h pixels) (wf_blacken h pixels') fun x => by
    rw [read_blacken h, read_blacken h, if_congr (hmem (x / 9)) rfl rfl]

/-- A run of in-range `SET_PIXEL i, 0, 0, 0` blackens its pixels, and changes nothing else but the responses. -/
theorem execAll_setPixel_black {s : State} (hc : s.lifecycle ≠ .unconfigured) {order : List Count}
    (hin : ∀ i ∈ order, i.toNat < s.pixelCount.toNat) :
    ∃ rs, execAll (order.map fun i => .setPixel i 0 0 0) s =
      .next { s with fb := blacken s.fb (order.map BitVec.toNat), responses := rs } := by
  induction order generalizing s with
  | nil => exact ⟨s.responses, rfl⟩
  | cons i order ih =>
    obtain ⟨hi, hrest⟩ := List.forall_mem_cons.1 hin
    have hx : exec (.setPixel i 0 0 0) s = _ := execSetPixel_of_inRange 0 0 0 hc hi
    obtain ⟨rs, hrs⟩ := ih (s := respond .ok 0 { s with fb := writePixel s.fb i.toNat 0 0 0 }) hc hrest
    refine ⟨rs, ?_⟩
    rw [List.map_cons, execAll, hx]
    exact hrs

/-- Settles O23: both blacken each pixel of the buffer. -/
theorem clearIsBlackPixelByPixel : Obligations.ClearIsBlackPixelByPixel := by
  intro s order hc hm hin hall
  have hmem : ∀ i, i ∈ order.map BitVec.toNat ↔ i ∈ List.range s.pixelCount.toNat := by
    intro i
    rw [List.mem_map, List.mem_range]
    refine ⟨fun ⟨c, hco, hci⟩ => hci ▸ hin c hco, fun hi => ?_⟩
    have hfit : (BitVec.ofNat 24 i).toNat = i := toNat_ofNat_of_fits (hi.trans s.pixelCount.isLt)
    exact ⟨BitVec.ofNat 24 i, hall _ (by rwa [hfit]), hfit⟩
  obtain ⟨rs, hu⟩ := execAll_setPixel_black hc hin
  rw [blacken_congr hm hmem, ← clearPixels_eq_blacken] at hu
  exact ⟨_, _, execClear_of_configured hc, hu, rfl⟩

/-- A channel slot that the zero fill covers is zero (R86). -/
theorem channelSlot_zeroFill (m : Memory) {k total : Nat} (hk : 3 * k + 3 ≤ total) :
    channelSlot (Memory.zeroFill m total) k = 0 := by
  have hzero : ∀ x, 3 * k ≤ x → x < 3 * k + 3 → Memory.read (Memory.zeroFill m total) x = Memory.read [] x :=
    fun x _ hx => (read_zeroFill m total x).trans (if_pos (hx.trans_le hk))
  exact (memRead_congr hzero).trans rfl

/-- Settles O25: `INIT` leaves zero in each slot, which `DEC` refuses (R82); the `CLEAR` after it leaves black. -/
theorem initAndClearDiffer : Obligations.InitAndClearDiffer := by
  intro p r s t u k hm hl hp hcap ht hu hk
  have hf : initFails p 3 r s = false := (initFails_eq_false_iff p 3 r s).2 ⟨hl, hp, rfl, hcap⟩
  obtain rfl := Host.Outcome.next.inj ((execInit_of_succeeds hf).symm.trans ht)
  obtain rfl := Host.Outcome.next.inj ((execClear_of_configured (by simp)).symm.trans hu)
  obtain ⟨-, hdec, -⟩ := encProducesSymbolsOnly
  refine ⟨?_, ?_⟩
  · have hslot : 3 * k + 3 ≤ initTotal p r := by simp only [initTotal, bytesPerPixel_eq]; omega
    rw [respond_fb, channelSlot_zeroFill s.fb hslot]
    exact hdec
  · exact (channelSlot_clearPixels (wf_zeroFill hm _) _ k).trans (if_pos hk)

/-! ### `RELEASE` (R99) -/

/-- Settles O26: the block it leaves is unconfigured, so no cell has a value. -/
theorem releaseFreesTheBuffer : Obligations.ReleaseFreesTheBuffer :=
  ⟨fun _ hc => ⟨_, execRelease_of_configured hc, rfl, fbByte_of_unconfigured rfl⟩,
    fun _ => execRelease_of_unconfigured⟩

end Sys2Proof.Machine

/-! SUPPORT. `RENDER` and the transport (42_render.md): what may have reached the line (R112, R140), which steps answer
a next state (R111), what the transport's answer does to the write in flight (R107 to R109), what a frame holds (R114,
R115), and runs of steps with the frames they log (R116). -/

namespace Sys2Proof.Machine

/-! ### What may have reached the line (R109, R112, R140) -/

theorem mayReachWire_of_ok {t : TxEntry} (h : t.outcome = .ok) (sent : List Byte) :
    t.mayReachWire sent ↔ sent = t.bytes := by
  rw [TxEntry.mayReachWire, h]

theorem mayReachWire_of_not_ok {t : TxEntry} (h : t.outcome ≠ .ok) (sent : List Byte) :
    t.mayReachWire sent ↔ sent <+: t.bytes := by
  unfold TxEntry.mayReachWire
  split
  · exact absurd ‹_› h
  · rfl
  · rfl

/-- Whatever the outcome, what was sent is an initial part of the frame (R109, R112, R140). -/
theorem isPrefix_of_mayReachWire {t : TxEntry} {sent : List Byte} (h : t.mayReachWire sent) : sent <+: t.bytes := by
  by_cases ho : t.outcome = .ok
  · exact ((mayReachWire_of_ok ho sent).1 h).symm ▸ List.prefix_rfl
  · exact (mayReachWire_of_not_ok ho sent).1 h

/-- Settles O37: the initial parts of a frame are its first `n` bytes, for each `n`. -/
theorem aFailedWriteMayHaveSentAnyPrefix : Obligations.AFailedWriteMayHaveSentAnyPrefix := by
  refine ⟨fun t n h => (mayReachWire_of_not_ok h _).2 (List.take_prefix n t.bytes), fun t sent h => ?_,
    fun t sent h => mayReachWire_of_ok h sent⟩
  have hp : sent <+: t.bytes := isPrefix_of_mayReachWire h
  exact ⟨sent.length, hp.length_le, List.prefix_iff_eq_take.1 hp⟩

/-! ### Which steps answer a next state (R111) -/

/-- A choice between two meanings that answer a next state answers one. -/
theorem exists_next_ite {c : Prop} [Decidable c] {x y : Host.Outcome State Fault Refusal} (hx : ∃ t, x = .next t)
    (hy : ∃ t, y = .next t) : ∃ t, (if c then x else y) = .next t := by
  split
  · exact hx
  · exact hy

/-- Every command answers a next state, in every state (R122). -/
theorem exec_answers (i : Instr) (s : State) : ∃ t, exec i s = .next t := by
  cases i with
  | encode v => exact ⟨_, rfl⟩
  | init p w r => exact exists_next_ite ⟨_, rfl⟩ ⟨_, rfl⟩
  | setPixel n r g b =>
    exact exists_next_ite (exists_next_ite ⟨_, rfl⟩ (exists_next_ite ⟨_, rfl⟩ ⟨_, rfl⟩)) ⟨_, rfl⟩
  | clear => exact exists_next_ite ⟨_, rfl⟩ ⟨_, rfl⟩
  | render => exact exists_next_ite ⟨_, rfl⟩ ⟨_, rfl⟩
  | release => exact exists_next_ite ⟨_, rfl⟩ ⟨_, rfl⟩
  | readReg n =>
    show ∃ t, execReadReg n s = .next t
    unfold execReadReg
    split
    · exact ⟨_, rfl⟩
    · exact ⟨_, rfl⟩
  | readByte a => exact exists_next_ite (exists_next_ite ⟨_, rfl⟩ ⟨_, rfl⟩) ⟨_, rfl⟩

/-- A block that is not `RENDERING` always steps on: it waits, or takes an event, a command or an illegal word. -/
theorem step_answers_of_ready {s : State} (hr : s.isRendering = false) : ∃ t, step s = .next t := by
  rcases hi : s.inputs with _ | ⟨⟨w⟩ | ⟨e⟩, rest⟩
  · exact ⟨s, by rw [step_of_ready hr, stepReady, hi]⟩
  · cases hd : decode w with
    | command i =>
      obtain ⟨t, ht⟩ := exec_answers i { s with inputs := rest }
      exact ⟨t, (step_of_command hr hi hd).trans ht⟩
    | illegal why => exact ⟨_, step_of_illegal hr hi hd⟩
  · obtain ⟨left, ht⟩ := step_of_takes (.inl ⟨hr, rest, hi⟩)
    exact ⟨_, ht⟩

/-- A render that neither an answer nor a reset will end has no next state (R111; entry 7). -/
theorem step_of_silent {s : State} {frame : List Byte} (hl : s.lifecycle = .rendering frame)
    (hn : takeEvent s.inputs = none) : step s = .fault .transportSilent := by
  rw [step_of_rendering hl, stepRendering, hn]

theorem step_answers_or_silent (s : State) :
    (∃ t, step s = .next t) ∨ ((∃ frame, s.lifecycle = .rendering frame) ∧ takeEvent s.inputs = none) := by
  cases hr : s.isRendering with
  | false => exact .inl (step_answers_of_ready hr)
  | true =>
    cases he : takeEvent s.inputs with
    | none => exact .inr ⟨(isRendering_eq_true_iff s).1 hr, rfl⟩
    | some p =>
      obtain ⟨left, ht⟩ := step_of_takes (.inr ⟨hr, p.2, he⟩)
      exact .inl ⟨_, ht⟩

/-- Settles O31: a step answers unless the block waits for the transport and no event is among its inputs. -/
theorem onlyASilentTransportStopsTheBlock : Obligations.OnlyASilentTransportStopsTheBlock := by
  refine ⟨fun s => (step_answers_or_silent s).imp_right fun ⟨⟨_, hl⟩, hn⟩ => step_of_silent hl hn,
    fun s => ⟨fun hf => ?_, fun ⟨⟨_, hl⟩, hheld⟩ => step_of_silent hl ((takeEvent_eq_none_iff _).2 hheld)⟩⟩
  obtain ⟨hl, hn⟩ := (step_answers_or_silent s).resolve_left (by simp [hf])
  exact ⟨hl, (takeEvent_eq_none_iff _).1 hn⟩

/-! ### The answer to the write in flight (R107 to R109) -/

/-- An answer that names the write in flight completes it (entry 5). -/
theorem onAnswer_inFlight {s : State} {frame : List Byte} (hl : s.lifecycle = .rendering frame) (a : Answer) :
    onAnswer s.txlog.length a s = completeRender frame a s := by
  rw [onAnswer, hl]
  exact if_pos rfl

/-- The block takes that answer from behind the commands the port holds (R144). -/
theorem step_of_answer_inFlight {s : State} {frame : List Byte} {held : List CmdWord} {rest : List Input} {a : Answer}
    (hl : s.lifecycle = .rendering frame)
    (hi : s.inputs = held.map .command ++ .event (.answer s.txlog.length a) :: rest) :
    step s = .next (completeRender frame a { s with inputs := held.map .command ++ rest }) := by
  have he := (takeEvent_eq_some_iff _ _ _).2 ⟨held, rest, hi, rfl⟩
  rw [step_of_rendering hl, stepRendering, he]
  exact congrArg Host.Outcome.next (onAnswer_inFlight (s := { s with inputs := held.map .command ++ rest }) hl a)

/-- The answer to the `RENDER` of an idle block leaves that block with the frame logged, and the response. -/
theorem step_of_answered_render {s : State} {held : List CmdWord} {rest : List Input} {a : Answer}
    (hl : s.lifecycle = .idle)
    (hi : s.inputs = held.map .command ++ .event (.answer s.txlog.length a) :: rest) :
    step { s with lifecycle := .rendering s.frame } =
      .next (answerResponse a { s with txlog := s.txlog ++ [⟨s.frame, outcomeOf a⟩],
                                       inputs := held.map .command ++ rest }) := by
  rw [step_of_answer_inFlight (s := { s with lifecycle := .rendering s.frame }) rfl hi, completeRender, ← hl]

/-- Settles O30: the two answers of the transport, each with its response. -/
theorem anAnswerCompletesTheRender : Obligations.AnAnswerCompletesTheRender :=
  fun s _ _ hl => ⟨_, execRender_of_configured (s := s) (by simp [hl]), step_of_answered_render hl,
    fun _ => step_of_answered_render hl⟩

/-! ### What a frame holds (R114, R115) -/

theorem readBytes_add (m : Memory) (a n k : Nat) :
    Memory.readBytes m a (n + k) = Memory.readBytes m a n ++ Memory.readBytes m (a + n) k := by
  simp [Memory.readBytes, List.range_add, Nat.add_assoc]

theorem readBytes_eq_replicate {m : Memory} {a n : Nat} {b : Byte}
    (h : ∀ x, a ≤ x → x < a + n → Memory.read m x = b) : Memory.readBytes m a n = List.replicate n b := by
  refine List.eq_replicate_iff.2 ⟨length_readBytes m a n, fun y hy => ?_⟩
  obtain ⟨k, hk, rfl⟩ := List.mem_map.1 hy
  exact h _ (Nat.le_add_right a k) (Nat.add_lt_add_left (List.mem_range.1 hk) a)

theorem lineBits_append (bytes bytes' : List Byte) : lineBits (bytes ++ bytes') = lineBits bytes ++ lineBits bytes' :=
  List.flatMap_append

/-- Zero bytes hold the line low, eight bits each (R40). -/
theorem lineBits_replicate_zero (n : Nat) : lineBits (List.replicate n 0x00) = List.replicate (8 * n) false := by
  have hzero : byteBits 0x00 = List.replicate 8 false := by decide
  induction n with
  | zero => rfl
  | succ n ih => rw [List.replicate_succ, lineBits_cons, ih, hzero, List.replicate_append_replicate, Nat.mul_succ,
      Nat.add_comm]

/-- The frame of an allocated buffer is its pixel region and the reset tail (R43, R107). -/
theorem State.Allocated.frame_eq {s : State} (h : s.Allocated) :
    s.frame = Memory.readBytes s.fb 0 s.pixelBytes ++ List.replicate s.resetBytes.toNat 0x00 := by
  have htail : Memory.readBytes s.fb (0 + s.pixelBytes) s.resetBytes.toNat = List.replicate s.resetBytes.toNat 0x00 :=
    readBytes_eq_replicate fun x hx _ => h.resetRegion x (by omega)
  rw [State.frame, State.totalBytes, readBytes_add, htail]

/-- Settles O34: the write in flight is the buffer as it stands, and the reset region of that is zero. -/
theorem everyFrameEndsWithTheResetTail : Obligations.EveryFrameEndsWithTheResetTail := by
  intro s frame h hl
  have hframe : frame = Memory.readBytes s.fb 0 s.pixelBytes ++ List.replicate s.resetBytes.toNat 0x00 :=
    (h.inFlight frame hl).trans (h.allocated (by simp [hl])).frame_eq
  exact ⟨_, length_readBytes s.fb 0 s.pixelBytes, hframe, by rw [hframe, lineBits_append, lineBits_replicate_zero]⟩

/-- The zero fill leaves zero bytes to read below its end (R86). -/
theorem readBytes_zeroFill (m : Memory) (total : Nat) :
    Memory.readBytes (Memory.zeroFill m total) 0 total = List.replicate total 0x00 :=
  readBytes_eq_replicate fun x _ hx => (read_zeroFill m total x).trans (if_pos (by omega))

/-- Settles O35: the frame of the block `INIT` leaves is what the zero fill covers. -/
theorem aRenderAfterInitSendsZeros : Obligations.ARenderAfterInitSendsZeros := by
  intro p r s t u hl hp hcap ht hu
  have hf : initFails p 3 r s = false := (initFails_eq_false_iff p 3 r s).2 ⟨hl, hp, rfl, hcap⟩
  obtain rfl := Host.Outcome.next.inj ((execInit_of_succeeds hf).symm.trans ht)
  obtain rfl := Host.Outcome.next.inj ((execRender_of_configured (by simp)).symm.trans hu)
  exact congrArg Lifecycle.rendering (readBytes_zeroFill s.fb (initTotal p r))

/-! ### Runs of steps (R50, R116) -/

theorem stepN_succ_of_step {s t : State} (h : step s = .next t) (n : Nat) : stepN (n + 1) s = stepN n t := by
  rw [stepN, h]

/-- A run goes on from where a shorter run of the same state has come. -/
theorem stepN_add {m : Nat} {s t : State} (h : stepN m s = .next t) (n : Nat) : stepN (m + n) s = stepN n t := by
  induction m generalizing s with
  | zero => cases h; rw [Nat.zero_add]
  | succ m ih =>
    rw [stepN] at h
    split at h
    · rw [Nat.succ_add, stepN_succ_of_step ‹_›, ih h]
    · cases h
    · cases h

/-- The idle block `s` once a `RENDER` of its frame has been answered with `a`: the frame is logged, and nothing else
but the command port has changed. -/
def State.rendered (s : State) (a : Answer) (rs : List Response) (is : List Input) : State :=
  { s with txlog := s.txlog ++ [⟨s.frame, outcomeOf a⟩], responses := rs, inputs := is }

/-- `RENDER` and its answer are two steps, from an idle block to an idle block (R107 to R109). -/
theorem stepN_render {s : State} {a : Answer} {rest : List Input} (hl : s.lifecycle = .idle)
    (hi : s.inputs = .command (encode .render) :: .event (.answer s.txlog.length a) :: rest) :
    ∃ rs, stepN 2 s = .next (s.rendered a rs rest) := by
  have hr : s.isRendering = false := by simp [hl]
  have haccept := (step_of_command hr hi (decode_encode _)).trans (execRender_of_configured (by simp [hl]))
  have hanswer := step_of_answered_render (held := [])
    (s := { s with inputs := .event (.answer s.txlog.length a) :: rest }) hl rfl
  rw [stepN_succ_of_step haccept, stepN_succ_of_step hanswer]
  cases a with
  | ok => exact ⟨_, rfl⟩
  | err e => exact ⟨_, rfl⟩

/-- A run of commands that only read adds responses and nothing else (R48). -/
theorem stepN_reads {reads : List Instr} (hreads : ∀ i ∈ reads, isRead i = true) {s : State} {rest : List Input}
    (hr : s.isRendering = false) (hi : s.inputs = reads.map (fun i => .command (encode i)) ++ rest) :
    ∃ rs, stepN reads.length s = .next { s with responses := rs, inputs := rest } := by
  induction reads generalizing s with
  | nil => exact ⟨s.responses, by rw [← show s.inputs = rest from hi]; rfl⟩
  | cons i reads ih =>
    obtain ⟨hread, hreads⟩ := List.forall_mem_cons.1 hreads
    obtain ⟨t, ht⟩ := exec_answers i { s with inputs := reads.map (fun i => .command (encode i)) ++ rest }
    have hstep := (step_of_command hr hi (decode_encode i)).trans ht
    obtain ⟨st, d, rfl⟩ := exec_of_isRead hread ht
    rw [List.length_cons, stepN_succ_of_step hstep]
    exact ih hreads hr rfl

/-- Settles O36: a `RENDER` and its answer, and then the reads, leave the block idle with the frame it had. -/
theorem twoRendersSendTheSameFrame : Obligations.TwoRendersSendTheSameFrame := by
  intro s reads a b hl hreads hi
  have hr : s.isRendering = false := by simp [hl]
  obtain ⟨rs, hfirst⟩ := stepN_render hl (hi.trans (List.append_assoc _ _ _))
  obtain ⟨rs', hreading⟩ := stepN_reads (s := s.rendered a rs _) hreads hr rfl
  obtain ⟨rs'', hsecond⟩ := stepN_render (a := b) (rest := [])
    (s := s.rendered a rs' [.command (encode .render), .event (.answer (s.txlog.length + 1) b)]) hl
    (by simp [State.rendered])
  have hrun : stepN (2 + (reads.length + 2)) s = _ :=
    (stepN_add hfirst _).trans ((stepN_add hreading _).trans hsecond)
  have hlength : s.inputs.length = 2 + (reads.length + 2) := by simp [hi]; omega
  exact ⟨_, hlength ▸ hrun, rfl, List.append_assoc _ _ _⟩

end Sys2Proof.Machine

/-! SUPPORT. The read-back commands (43_readback.md): the registers by their numbers and values (R35, R117, R118), the
answers of `READ_BYTE` (R119), and that commands that only read do not disturb another (R120). -/

namespace Sys2Proof.Machine

/-! ### The registers by number (R35) -/

@[simp] theorem regOfNumber_regNumber (r : Config.Reg) : regOfNumber (regNumber r) = some r := by cases r <;> decide

theorem regNumber_injective : Function.Injective regNumber := fun r r' h =>
  Option.some.inj (by rw [← regOfNumber_regNumber r, h, regOfNumber_regNumber])

theorem regNumber_le (r : Config.Reg) : (regNumber r).toNat ≤ 8 := by cases r <;> decide

/-- The numbers up to 8 are all in the table. -/
theorem exists_regNumber_eq {n : BitVec 8} (h : n.toNat ≤ 8) : ∃ r, regNumber r = n := by
  obtain ⟨r, hr⟩ : ∃ r, regNumber r = BitVec.ofNat 8 n.toNat := by
    generalize n.toNat = k at h
    interval_cases k
    exacts [⟨.state, rfl⟩, ⟨.pixelCount, rfl⟩, ⟨.symbolWidth, rfl⟩, ⟨.resetBytes, rfl⟩, ⟨.pixelBytes, rfl⟩,
      ⟨.totalBytes, rfl⟩, ⟨.bufCapacity, rfl⟩, ⟨.strictIndex, rfl⟩, ⟨.swSupported, rfl⟩]
  exact ⟨r, by simpa using hr⟩

/-- The numbers above 8 are reserved. -/
theorem regOfNumber_eq_none {n : BitVec 8} (h : 8 < n.toNat) : regOfNumber n = none := by
  refine List.find?_eq_none.2 fun r _ hr => ?_
  have hle := regNumber_le r
  rw [eq_of_beq hr] at hle
  exact absurd h (Nat.not_lt.2 hle)

/-! ### The answers of `READ_REG` and `READ_BYTE` (R117, R119) -/

section answers
variable {s : State}

/-- `READ_REG` of a register's number (R117). -/
theorem execReadReg_of_number {n : BitVec 8} {r : Config.Reg} (h : regOfNumber n = some r) :
    execReadReg n s = .next (respond .ok (readRegister s r) s) := by
  rw [execReadReg, h]

/-- `READ_REG` of a reserved number (R35, R117). -/
theorem execReadReg_of_reserved {n : BitVec 8} (h : regOfNumber n = none) :
    execReadReg n s = .next (respond .badAddress 0 s) := by
  rw [execReadReg, h, raise_eq_respond]

/-- `READ_BYTE` within the buffer (R119). -/
theorem execReadByte_of_inRange {a : BitVec 32} (hc : s.lifecycle ≠ .unconfigured) (ha : a.toNat < s.totalBytes) :
    execReadByte a s = .next (respond .ok ((memRead s.fb a.toNat 1).setWidth 32) s) := by
  rw [execReadByte, if_pos ((configured_eq_true_iff s).2 hc), if_pos ha]

/-- `READ_BYTE` past the buffer (R119). -/
theorem execReadByte_of_outOfRange {a : BitVec 32} (hc : s.lifecycle ≠ .unconfigured) (ha : s.totalBytes ≤ a.toNat) :
    execReadByte a s = .next (respond .badAddress 0 s) := by
  rw [execReadByte, if_pos ((configured_eq_true_iff s).2 hc), if_neg (Nat.not_lt.2 ha), raise_eq_respond]

/-- `READ_BYTE` without a buffer (R119). -/
theorem execReadByte_of_unconfigured {a : BitVec 32} (hl : s.lifecycle = .unconfigured) :
    execReadByte a s = .next (respond .notConfigured 0 s) :=
  if_neg (ne_true_of_eq_false ((configured_eq_false_iff s).2 hl))

end answers

/-- Settles O40: the three outcomes, and a byte loses nothing in 32 bits. -/
theorem readByteAnswersTheByte : Obligations.ReadByteAnswersTheByte :=
  ⟨fun a s hc ha => ⟨_, (BitVec.toNat_setWidth_of_le (by decide)).trans (toNat_memRead_one s.fb a.toNat),
      execReadByte_of_inRange hc ha⟩,
    fun _ _ => execReadByte_of_outOfRange, fun _ _ => execReadByte_of_unconfigured⟩

/-! ### The values of the registers (R35, R118) -/

/-- `STATE` of a block that is not `RENDERING` reads 0 or 1 (R18). -/
theorem toNat_readRegister_state {s : State} (hr : s.isRendering = false) :
    (readRegister s .state).toNat = if s.lifecycle = .unconfigured then 0 else 1 := by
  by_cases hl : s.lifecycle = .unconfigured
  · simp [readRegister, hl, stateCode]
  · simp [readRegister, lifecycle_eq_idle hr hl, stateCode]

/-- `STRICT_INDEX` reads 1 where the policy is strict (R25). -/
theorem readRegister_strictIndex (s : State) :
    readRegister s .strictIndex = if s.build.strictIndex = true then 1 else 0 := by
  rw [readRegister]
  cases s.build.strictIndex <;> rfl

/-- Settles O38: the numbers up to 8 are those of the registers, whose values all fit 32 bits. -/
theorem readRegAnswersTheRegister : Obligations.ReadRegAnswersTheRegister := by
  refine ⟨fun s n hn hr => ?_, fun s n hn => execReadReg_of_reserved (regOfNumber_eq_none hn)⟩
  obtain ⟨r, rfl⟩ := exists_regNumber_eq hn
  refine ⟨_, execReadReg_of_number (regOfNumber_regNumber r), ?_⟩
  obtain ⟨hpixel, htotal, -⟩ := sizesNeverWrap s
  cases r with
  | state => exact toNat_readRegister_state hr
  | pixelCount => exact BitVec.toNat_setWidth_of_le (by decide)
  | symbolWidth => exact BitVec.toNat_setWidth_of_le (by decide)
  | resetBytes => exact BitVec.toNat_setWidth_of_le (by decide)
  | pixelBytes => exact toNat_ofNat_of_fits (by omega)
  | totalBytes => exact toNat_ofNat_of_fits (by omega)
  | bufCapacity => rfl
  | strictIndex => rw [readRegister_strictIndex, apply_ite BitVec.toNat]; rfl
  | swSupported => rfl

/-- Without a buffer the registers up to `TOTAL_BYTES` read 0 (R118). -/
theorem State.Vacant.readRegister_eq_zero {s : State} (h : s.Vacant) (hl : s.lifecycle = .unconfigured)
    {r : Config.Reg} (hr : (regNumber r).toNat ≤ 5) : readRegister s r = 0 := by
  cases r with
  | state => rw [readRegister, hl]; rfl
  | pixelCount => rw [readRegister, h.pixelCount]; rfl
  | symbolWidth => rw [readRegister, h.symbolWidth]; rfl
  | resetBytes => rw [readRegister, h.resetBytes]; rfl
  | pixelBytes => rw [readRegister, pixelBytes_eq, h.pixelCount]; rfl
  | totalBytes => rw [readRegister, totalBytes_eq, h.pixelCount, h.resetBytes]; rfl
  | bufCapacity | strictIndex | swSupported => exact absurd hr (by decide)

/-- Settles O39: the invariant has the registers of an unconfigured block at 0, and the others are constants. -/
theorem unconfiguredRegistersReadZero : Obligations.UnconfiguredRegistersReadZero := by
  intro s n h hl hn
  obtain ⟨r, rfl⟩ := exists_regNumber_eq hn
  refine ⟨_, execReadReg_of_number (regOfNumber_regNumber r), (h.vacant hl).readRegister_eq_zero hl,
    fun h6 => ?_, fun h7 => ?_, fun h8 => ?_⟩
  · rw [regNumber_injective (a₂ := .bufCapacity) h6]; rfl
  · rw [regNumber_injective (a₂ := .strictIndex) h7, readRegister_strictIndex]
  · rw [regNumber_injective (a₂ := .swSupported) h8]; rfl

/-! ### Reading commands between other commands (R120) -/

/-- The registers do not hold the responses. -/
@[simp] theorem readRegister_with_responses (s : State) (rs : List Response) (r : Config.Reg) :
    readRegister { s with responses := rs } r = readRegister s r := by
  cases r <;> rfl

/-- `SET_PIXEL` without a buffer (R92). -/
theorem execSetPixel_of_unconfigured {s : State} (i : Count) (r g b : Byte) (hl : s.lifecycle = .unconfigured) :
    execSetPixel i r g b s = .next (respond .notConfigured 0 s) :=
  if_neg (ne_true_of_eq_false ((configured_eq_false_iff s).2 hl))

/-- `RENDER` without a buffer (R107). -/
theorem execRender_of_unconfigured {s : State} (hl : s.lifecycle = .unconfigured) :
    execRender s = .next (respond .notConfigured 0 s) :=
  if_neg (ne_true_of_eq_false ((configured_eq_false_iff s).2 hl))

/-- What a command does and answers does not depend on the responses before it, which it only adds to. -/
theorem exec_with_responses {i : Instr} {s t : State} (h : exec i s = .next t) :
    ∃ new, t.responses = s.responses ++ new ∧
      ∀ rs, exec i { s with responses := rs } = .next { t with responses := rs ++ new } := by
  cases i with
  | encode v => cases h; exact ⟨_, rfl, fun _ => rfl⟩
  | init p w r =>
    obtain ⟨hf, rfl⟩ | ⟨hf, rfl⟩ := execInit_cases h
    · exact ⟨_, rfl, fun _ => execInit_of_fails hf⟩
    · exact ⟨_, rfl, fun _ => execInit_of_succeeds hf⟩
  | setPixel i r g b =>
    obtain ⟨hl, rfl⟩ | ⟨hc, hi, rfl⟩ | ⟨hc, hi, rfl⟩ := execSetPixel_cases h
    · exact ⟨_, rfl, fun _ => execSetPixel_of_unconfigured i r g b hl⟩
    · exact ⟨_, rfl, fun _ => execSetPixel_of_outOfRange r g b hc hi⟩
    · exact ⟨_, rfl, fun _ => execSetPixel_of_inRange r g b hc hi⟩
  | clear =>
    obtain ⟨hl, rfl⟩ | ⟨hc, rfl⟩ := execClear_cases h
    · exact ⟨_, rfl, fun _ => execClear_of_unconfigured hl⟩
    · exact ⟨_, rfl, fun _ => execClear_of_configured hc⟩
  | render =>
    obtain ⟨hl, rfl⟩ | ⟨hc, rfl⟩ := execRender_cases h
    · exact ⟨_, rfl, fun _ => execRender_of_unconfigured hl⟩
    · exact ⟨[], (List.append_nil _).symm, fun rs => by rw [List.append_nil]; exact execRender_of_configured hc⟩
  | release =>
    obtain ⟨hl, rfl⟩ | ⟨hc, rfl⟩ := execRelease_cases h
    · exact ⟨_, rfl, fun _ => execRelease_of_unconfigured hl⟩
    · exact ⟨_, rfl, fun _ => execRelease_of_configured hc⟩
  | readReg n =>
    obtain ⟨r, hn, rfl⟩ | ⟨hn, rfl⟩ := execReadReg_cases h
    · exact ⟨_, rfl, fun rs => readRegister_with_responses s rs r ▸ execReadReg_of_number hn⟩
    · exact ⟨_, rfl, fun _ => execReadReg_of_reserved hn⟩
  | readByte a =>
    obtain ⟨hl, rfl⟩ | ⟨hc, ha, rfl⟩ | ⟨hc, ha, rfl⟩ := execReadByte_cases h
    · exact ⟨_, rfl, fun _ => execReadByte_of_unconfigured hl⟩
    · exact ⟨_, rfl, fun _ => execReadByte_of_outOfRange hc ha⟩
    · exact ⟨_, rfl, fun _ => execReadByte_of_inRange hc ha⟩

/-- A run of commands that only read adds one response each, and nothing else (R48, R120). -/
theorem execAll_reads {reads : List Instr} (hreads : ∀ i ∈ reads, isRead i = true) (s : State) :
    ∃ answers, answers.length = reads.length ∧
      execAll reads s = .next { s with responses := s.responses ++ answers } := by
  induction reads generalizing s with
  | nil => exact ⟨[], rfl, by rw [execAll, List.append_nil]⟩
  | cons i reads ih =>
    obtain ⟨hread, hrest⟩ := List.forall_mem_cons.1 hreads
    obtain ⟨t, ht⟩ := exec_answers i s
    obtain ⟨st, d, rfl⟩ := exec_of_isRead hread ht
    obtain ⟨answers, hlength, hrun⟩ := ih hrest (respond st d s)
    refine ⟨⟨st, d⟩ :: answers, congrArg Nat.succ hlength, ?_⟩
    rw [execAll, ht, List.append_cons]
    exact hrun

/-- Settles O41: the reads add their answers, and a command only adds to the responses it finds. -/
theorem readsDoNotDisturbOtherCommands : Obligations.ReadsDoNotDisturbOtherCommands := by
  refine ⟨fun i s t hi h => ?_, fun reads i s t hreads h => ?_⟩
  · obtain ⟨st, d, rfl⟩ := exec_of_isRead hi h
    exact ⟨⟨st, d⟩, rfl⟩
  · obtain ⟨answers, hlength, hrun⟩ := execAll_reads hreads s
    obtain ⟨new, hnew, hany⟩ := exec_with_responses h
    exact ⟨_, _, answers, new, hrun, hany _, hlength, hnew, rfl⟩

end Sys2Proof.Machine

/-! SUPPORT. The responses and their errors (60_exceptions.md): the codes (R18, R123); the causes of each error status
(R124 to R129), and that a command or word with such a cause answers it with `DATA` 0 and nothing else (R130); the
error of the transport (R126); and that a command puts out one response (R122). -/

namespace Sys2Proof.Machine

/-! ### The codes (R18, R123) -/

/-- Settles O58: each status and each `STATE` has the code of its row. -/
theorem statusAndStateCodesAreTheTables : Obligations.StatusAndStateCodesAreTheTables := by
  refine ⟨rfl, rfl, rfl, rfl, rfl, rfl, rfl, fun st => ?_, rfl, rfl, fun _ => rfl, fun l => ?_⟩
  · cases st <;> decide
  · cases l <;> simp [stateCode]

/-! ### The causes of an error -/

/-- The command `i` has a cause for the error status, on the block `s`. -/
inductive State.Fails (s : State) : Instr → Status → Prop
  /-- R124. -/
  | init {p : Count} {w : BitVec 8} {r : Count}
    (h : s.lifecycle ≠ .unconfigured ∨ p = 0 ∨ w.toNat ≠ 3 ∨ s.build.bufCapacity.toNat < 9 * p.toNat + r.toNat) :
    Fails s (.init p w r) .configError
  /-- R94, R125. -/
  | index {i : Count} {r g b : Byte} (hc : s.lifecycle ≠ .unconfigured) (hi : s.pixelCount.toNat ≤ i.toNat)
    (hs : s.build.strictIndex = true) : Fails s (.setPixel i r g b) .indexOutOfRange
  /-- R127, for each of the five commands that need a buffer. -/
  | setPixel {i : Count} {r g b : Byte} (hl : s.lifecycle = .unconfigured) : Fails s (.setPixel i r g b) .notConfigured
  | clear (hl : s.lifecycle = .unconfigured) : Fails s .clear .notConfigured
  | render (hl : s.lifecycle = .unconfigured) : Fails s .render .notConfigured
  | release (hl : s.lifecycle = .unconfigured) : Fails s .release .notConfigured
  | readByte {a : BitVec 32} (hl : s.lifecycle = .unconfigured) : Fails s (.readByte a) .notConfigured
  /-- R117, R129. -/
  | register {n : BitVec 8} (hn : 8 < n.toNat) : Fails s (.readReg n) .badAddress
  /-- R119, R129. -/
  | address {a : BitVec 32} (hc : s.lifecycle ≠ .unconfigured) (ha : s.totalBytes ≤ a.toNat) :
    Fails s (.readByte a) .badAddress

/-- The causes do not lie in what the port offers. -/
theorem State.Fails.with_inputs {s : State} {i : Instr} {e : Status} (h : s.Fails i e) (is : List Input) :
    State.Fails { s with inputs := is } i e := by
  cases h <;> constructor <;> assumption

/-- A command with a cause for an error answers it, and does nothing else (R130). -/
theorem exec_of_fails {s : State} {i : Instr} {e : Status} (h : s.Fails i e) :
    exec i s = .next (respond e 0 s) := by
  cases h with
  | init h => exact execInit_of_fails ((initFails_eq_true_iff _ _ _ s).2 h)
  | index hc hi hs => exact (execSetPixel_of_outOfRange _ _ _ hc hi).trans (by rw [if_pos hs])
  | setPixel hl => exact execSetPixel_of_unconfigured _ _ _ _ hl
  | clear hl => exact execClear_of_unconfigured hl
  | render hl => exact execRender_of_unconfigured hl
  | release hl => exact execRelease_of_unconfigured hl
  | readByte hl => exact execReadByte_of_unconfigured hl
  | register hn => exact execReadReg_of_reserved (regOfNumber_eq_none hn)
  | address hc ha => exact execReadByte_of_outOfRange hc ha

/-- The table of R35 has every number up to 8. -/
theorem lt_of_regOfNumber_eq_none {n : BitVec 8} (h : regOfNumber n = none) : 8 < n.toNat := by
  by_contra hn
  obtain ⟨r, rfl⟩ := exists_regNumber_eq (Nat.le_of_not_lt hn)
  simp at h

/-- A command fails with an error it has a cause for, answers `OK`, or is a `RENDER` that starts its write. -/
theorem exec_cases {i : Instr} {s t : State} (h : exec i s = .next t) :
    (∃ e, s.Fails i e ∧ t = respond e 0 s) ∨ (∃ d, t.responses = s.responses ++ [⟨.ok, d⟩]) ∨
      (i = .render ∧ s.lifecycle ≠ .unconfigured ∧ t = { s with lifecycle := .rendering s.frame }) := by
  cases i with
  | encode v => cases h; exact .inr (.inl ⟨_, rfl⟩)
  | init p w r =>
    obtain ⟨hf, rfl⟩ | ⟨-, rfl⟩ := execInit_cases h
    · exact .inl ⟨_, .init ((initFails_eq_true_iff p w r s).1 hf), rfl⟩
    · exact .inr (.inl ⟨_, rfl⟩)
  | setPixel i r g b =>
    obtain ⟨hl, rfl⟩ | ⟨hc, hi, rfl⟩ | ⟨-, -, rfl⟩ := execSetPixel_cases h
    · exact .inl ⟨_, .setPixel hl, rfl⟩
    · split_ifs with hs
      · exact .inl ⟨_, .index hc hi hs, rfl⟩
      · exact .inr (.inl ⟨_, rfl⟩)
    · exact .inr (.inl ⟨_, rfl⟩)
  | clear =>
    obtain ⟨hl, rfl⟩ | ⟨-, rfl⟩ := execClear_cases h
    · exact .inl ⟨_, .clear hl, rfl⟩
    · exact .inr (.inl ⟨_, rfl⟩)
  | render =>
    obtain ⟨hl, rfl⟩ | ⟨hc, rfl⟩ := execRender_cases h
    · exact .inl ⟨_, .render hl, rfl⟩
    · exact .inr (.inr ⟨rfl, hc, rfl⟩)
  | release =>
    obtain ⟨hl, rfl⟩ | ⟨-, rfl⟩ := execRelease_cases h
    · exact .inl ⟨_, .release hl, rfl⟩
    · exact .inr (.inl ⟨_, rfl⟩)
  | readReg n =>
    obtain ⟨r, -, rfl⟩ | ⟨hn, rfl⟩ := execReadReg_cases h
    · exact .inr (.inl ⟨_, rfl⟩)
    · exact .inl ⟨_, .register (lt_of_regOfNumber_eq_none hn), rfl⟩
  | readByte a =>
    obtain ⟨hl, rfl⟩ | ⟨hc, ha, rfl⟩ | ⟨-, -, rfl⟩ := execReadByte_cases h
    · exact .inl ⟨_, .readByte hl, rfl⟩
    · exact .inl ⟨_, .address hc ha, rfl⟩
    · exact .inr (.inl ⟨_, rfl⟩)

/-- A command whose one response is an error has a cause for it, and has done nothing else. -/
theorem exec_error_cases {i : Instr} {s t : State} {st : Status} {d : Data} (h : exec i s = .next t)
    (hr : t.responses = s.responses ++ [⟨st, d⟩]) (hok : st ≠ .ok) :
    d = 0 ∧ s.Fails i st ∧ t = respond st 0 s := by
  obtain ⟨e, hf, rfl⟩ | ⟨d', ht⟩ | ⟨-, -, rfl⟩ := exec_cases h
  · obtain ⟨rfl, rfl⟩ := eq_of_respond_responses hr
    exact ⟨rfl, hf, rfl⟩
  · obtain ⟨hst, -⟩ : st = .ok ∧ d = d' := by simpa [ht, eq_comm] using hr
    exact absurd hst hok
  · simp at hr

/-! ### The answer to the write in flight (R107 to R109, R126) -/

/-- The end of a render puts out its one response. -/
theorem completeRender_responds (frame : List Byte) (a : Answer) (s : State) :
    ∃ r, (completeRender frame a s).responses = s.responses ++ [r] := by
  cases a with
  | ok => exact ⟨_, rfl⟩
  | err e => exact ⟨_, rfl⟩

/-- The step that takes the answer to the write in flight ends the render (entry 5). -/
theorem step_of_takes_inFlight {s : State} {frame : List Byte} {a : Answer} (hl : s.lifecycle = .rendering frame)
    (h : s.takes (.answer s.txlog.length a)) :
    ∃ left, step s = .next (completeRender frame a { s with inputs := left }) := by
  obtain ⟨left, hs⟩ := step_of_takes h
  exact ⟨left, hs.trans (congrArg Host.Outcome.next (onAnswer_inFlight (s := { s with inputs := left }) hl a))⟩

/-- An event whose one response is an error is the transport's, to the write in flight. -/
theorem onEvent_error_cases {e : Event} {s : State} {st : Status} {d : Data}
    (hr : (onEvent e s).responses = s.responses ++ [⟨st, d⟩]) (hok : st ≠ .ok) :
    ∃ frame x, st = .transmitError ∧ d = Config.terrCode x ∧ e = .answer s.txlog.length (.err x) ∧
      s.lifecycle = .rendering frame ∧ onEvent e s = completeRender frame (.err x) s := by
  cases e with
  | reset => simp [onEvent] at hr
  | answer call a =>
    rw [onEvent] at hr ⊢
    obtain ⟨frame, hl, rfl, ht⟩ | ⟨-, ht⟩ := onAnswer_cases call a s <;> rw [ht] at hr
    · cases a with
      | ok => exact absurd (eq_of_respond_responses hr).1 hok
      | err x =>
        obtain ⟨rfl, rfl⟩ := eq_of_respond_responses hr
        exact ⟨frame, x, rfl, rfl, rfl, hl, ht⟩
    · simp at hr

/-! ### The steps that answer an error -/

/-- The next step of `s` has a cause for the error status: in the command it accepts, or in its word. -/
inductive State.Errs (s : State) : Status → Prop
  | command {i : Instr} {st : Status} (ha : s.accepts i) (hf : s.Fails i st) : Errs s st
  /-- R68, R128. -/
  | word {w : CmdWord} {rest : List Input} {why : IllegalWord} (hr : s.isRendering = false)
    (hi : s.inputs = .command w :: rest) (hd : decode w = .illegal why) : Errs s .illegalCommand

/-- A step with a cause for an error answers it, and does nothing else but to take its input (R130). -/
theorem step_of_errs {s : State} {st : Status} (h : s.Errs st) :
    ∃ left, step s = .next (respond st 0 { s with inputs := left }) := by
  cases h with
  | command ha hf =>
    obtain ⟨hr, w, rest, hi, hd⟩ := ha
    exact ⟨rest, (step_of_command hr hi hd).trans (exec_of_fails (hf.with_inputs rest))⟩
  | word hr hi hd => exact ⟨_, step_of_illegal hr hi hd⟩

/-- A step whose one response is an error takes the transport's error to the write in flight, or has a cause for the
error in its command or word and does nothing else. -/
theorem step_error_cases {s t : State} {st : Status} {d : Data} (h : step s = .next t)
    (hr : t.responses = s.responses ++ [⟨st, d⟩]) (hok : st ≠ .ok) :
    (∃ frame x left, st = .transmitError ∧ d = Config.terrCode x ∧ s.takes (.answer s.txlog.length (.err x)) ∧
      s.lifecycle = .rendering frame ∧ t = completeRender frame (.err x) { s with inputs := left }) ∨
    (d = 0 ∧ s.Errs st ∧ ∃ left, t = respond st 0 { s with inputs := left }) := by
  obtain ⟨e, left, he, rfl, -⟩ | ⟨-, -, rfl⟩ | ⟨w, rest, i, hs, hi, hw, hx⟩ | ⟨w, rest, why, hs, hi, hw, rfl⟩ :=
    step_cases h
  · obtain ⟨frame, x, hst, hd, rfl, hl, ht⟩ := onEvent_error_cases (s := { s with inputs := left }) hr hok
    exact .inl ⟨frame, x, left, hst, hd, he, hl, ht⟩
  · simp at hr
  · obtain ⟨hd, hf, rfl⟩ := exec_error_cases hx hr hok
    exact .inr ⟨hd, .command ⟨hs, w, rest, hi, hw⟩ (hf.with_inputs s.inputs), rest, rfl⟩
  · obtain ⟨rfl, rfl⟩ := eq_of_respond_responses (s := { s with inputs := rest }) hr
    exact .inr ⟨rfl, .word hs hi hw, rest, rfl⟩

/-- `TRANSMIT_ERROR` has no cause in a command or a word. -/
theorem not_errs_transmitError (s : State) : ¬ s.Errs .transmitError := by
  rintro (⟨-, hf⟩ | _)
  cases hf

/-- Every other error is answered exactly on its causes, with `DATA` 0. -/
theorem answers_error_iff {st : Status} (hok : st ≠ .ok) (ht : st ≠ .transmitError) (s : State) (d : Data) :
    (∃ t, step s = .next t ∧ t.responses = s.responses ++ [⟨st, d⟩]) ↔ d = 0 ∧ s.Errs st := by
  constructor
  · rintro ⟨t, h, hr⟩
    obtain ⟨_, _, _, hst, -⟩ | ⟨hd, he, -⟩ := step_error_cases h hr hok
    · exact absurd hst ht
    · exact ⟨hd, he⟩
  · rintro ⟨rfl, he⟩
    obtain ⟨left, h⟩ := step_of_errs he
    exact ⟨_, h, rfl⟩

/-! ### Each error's causes (R124, R125, R127 to R129) -/

section causes
variable (s : State)

theorem errs_configError_iff : s.Errs .configError ↔ ∃ p w r, s.accepts (.init p w r) ∧
    (s.lifecycle ≠ .unconfigured ∨ p = 0 ∨ w.toNat ≠ 3 ∨ s.build.bufCapacity.toNat < 9 * p.toNat + r.toNat) := by
  constructor
  · rintro ⟨ha, hf⟩
    cases hf with
    | init h => exact ⟨_, _, _, ha, h⟩
  · rintro ⟨p, w, r, ha, h⟩
    exact .command ha (.init h)

theorem errs_indexOutOfRange_iff : s.Errs .indexOutOfRange ↔ ∃ i r g b, s.accepts (.setPixel i r g b) ∧
    s.lifecycle ≠ .unconfigured ∧ s.pixelCount.toNat ≤ i.toNat ∧ s.build.strictIndex = true := by
  constructor
  · rintro ⟨ha, hf⟩
    cases hf with
    | index hc hi hs => exact ⟨_, _, _, _, ha, hc, hi, hs⟩
  · rintro ⟨i, r, g, b, ha, hc, hi, hs⟩
    exact .command ha (.index hc hi hs)

theorem errs_notConfigured_iff : s.Errs .notConfigured ↔
    s.lifecycle = .unconfigured ∧ ((∃ i r g b, s.accepts (.setPixel i r g b)) ∨ s.accepts .clear ∨
      s.accepts .render ∨ s.accepts .release ∨ ∃ a, s.accepts (.readByte a)) := by
  constructor
  · rintro ⟨ha, hf⟩
    cases hf with
    | setPixel hl => exact ⟨hl, .inl ⟨_, _, _, _, ha⟩⟩
    | clear hl => exact ⟨hl, .inr (.inl ha)⟩
    | render hl => exact ⟨hl, .inr (.inr (.inl ha))⟩
    | release hl => exact ⟨hl, .inr (.inr (.inr (.inl ha)))⟩
    | readByte hl => exact ⟨hl, .inr (.inr (.inr (.inr ⟨_, ha⟩)))⟩
  · rintro ⟨hl, ⟨i, r, g, b, ha⟩ | ha | ha | ha | ⟨a, ha⟩⟩
    · exact .command ha (.setPixel hl)
    · exact .command ha (.clear hl)
    · exact .command ha (.render hl)
    · exact .command ha (.release hl)
    · exact .command ha (.readByte hl)

theorem errs_illegalCommand_iff : s.Errs .illegalCommand ↔
    s.isRendering = false ∧ ∃ w rest why, s.inputs = .command w :: rest ∧ decode w = .illegal why := by
  constructor
  · rintro (⟨-, hf⟩ | ⟨hr, hi, hd⟩)
    · cases hf
    · exact ⟨hr, _, _, _, hi, hd⟩
  · rintro ⟨hr, w, rest, why, hi, hd⟩
    exact .word hr hi hd

theorem errs_badAddress_iff : s.Errs .badAddress ↔ (∃ n, s.accepts (.readReg n) ∧ 8 < n.toNat) ∨
    ∃ a, s.accepts (.readByte a) ∧ s.lifecycle ≠ .unconfigured ∧ s.totalBytes ≤ a.toNat := by
  constructor
  · rintro ⟨ha, hf⟩
    cases hf with
    | register hn => exact .inl ⟨_, ha, hn⟩
    | address hc hx => exact .inr ⟨_, ha, hc, hx⟩
  · rintro (⟨n, ha, hn⟩ | ⟨a, ha, hc, hx⟩)
    · exact .command ha (.register hn)
    · exact .command ha (.address hc hx)

end causes

/-- Settles O44: a step answers an error exactly when it has a cause, and these are the causes of each. -/
theorem eachErrorHasExactlyItsCauses : Obligations.EachErrorHasExactlyItsCauses := by
  intro s d
  refine ⟨?_, ?_, ?_, ?_, ?_⟩
  · rw [answers_error_iff (by decide) (by decide), errs_configError_iff]
  · rw [answers_error_iff (by decide) (by decide), errs_indexOutOfRange_iff]
  · rw [answers_error_iff (by decide) (by decide), errs_notConfigured_iff]
  · rw [answers_error_iff (by decide) (by decide), errs_illegalCommand_iff]
  · rw [answers_error_iff (by decide) (by decide), errs_badAddress_iff]

/-- Settles O45: no command and no word has a cause for this status, and the transport's error puts it out. -/
theorem transmitErrorReportsTheTransportsError : Obligations.TransmitErrorReportsTheTransportsError := by
  intro s d
  constructor
  · rintro ⟨t, h, hr⟩
    obtain ⟨frame, x, -, -, hd, ha, hl, -⟩ | ⟨-, he, -⟩ := step_error_cases h hr (by decide)
    · exact ⟨(isRendering_eq_true_iff s).2 ⟨frame, hl⟩, x, ha, hd⟩
    · exact absurd he (not_errs_transmitError s)
  · rintro ⟨hr, x, ha, rfl⟩
    obtain ⟨frame, hl⟩ := (isRendering_eq_true_iff s).1 hr
    obtain ⟨left, h⟩ := step_of_takes_inFlight hl ha
    exact ⟨_, h, rfl⟩

/-- Settles O46: an error in a command or a word is its response alone, and the transport's ends the render. -/
theorem errorsHaveNoOtherEffect : Obligations.ErrorsHaveNoOtherEffect := by
  intro s t st d h hr
  refine ⟨fun hok ht => ?_, ?_⟩
  · obtain ⟨_, _, _, hst, -⟩ | ⟨-, -, left, rfl⟩ := step_error_cases h hr hok
    · exact absurd hst ht
    · rfl
  · rintro rfl
    obtain ⟨frame, x, _, -, -, -, hl, rfl⟩ | ⟨-, he, -⟩ := step_error_cases h hr (by decide)
    · exact ⟨frame, x, hl, rfl⟩
    · exact absurd he (not_errs_transmitError s)

/-! ### One response to every command (R122) -/

/-- No command but `RENDER` starts a write. -/
theorem exec_starts_no_render {i : Instr} {s t : State} (h : exec i s = .next t)
    (hn : ¬ (i = .render ∧ s.lifecycle ≠ .unconfigured)) (ht : t.isRendering = true) : t.lifecycle = s.lifecycle := by
  obtain hk | ⟨p, w, r, rfl⟩ | rfl | rfl := exec_keeps_lifecycle h
  · exact hk
  · obtain ⟨-, rfl⟩ | ⟨-, rfl⟩ := execInit_cases h
    · rfl
    · simp at ht
  · obtain ⟨-, rfl⟩ | ⟨hc, -⟩ := execRender_cases h
    · rfl
    · exact absurd ⟨rfl, hc⟩ hn
  · obtain ⟨-, rfl⟩ | ⟨-, rfl⟩ := execRelease_cases h
    · rfl
    · simp at ht

/-- A command responds once, but for a `RENDER` that starts its write. -/
theorem exec_responds {i : Instr} {s t : State} (h : exec i s = .next t)
    (hn : ¬ (i = .render ∧ s.lifecycle ≠ .unconfigured)) : ∃ r, t.responses = s.responses ++ [r] := by
  obtain ⟨e, -, rfl⟩ | ⟨d, ht⟩ | ⟨hi, hc, -⟩ := exec_cases h
  · exact ⟨_, rfl⟩
  · exact ⟨_, ht⟩
  · exact absurd ⟨hi, hc⟩ hn

/-- Settles O42: what a command answers it responds to at once, or starts a write whose answer ends the render with its
response. -/
theorem everyCommandCompletesWithOneResponse : Obligations.EveryCommandCompletesWithOneResponse := by
  refine ⟨fun i s => ?_, fun s a hr ha => ?_⟩
  · obtain ⟨t, ht⟩ := exec_answers i s
    refine ⟨t, ht, ?_, fun hn => ⟨exec_responds ht hn, exec_starts_no_render ht hn⟩⟩
    rintro ⟨rfl, hc⟩
    exact Host.Outcome.next.inj (ht.symm.trans (execRender_of_configured hc))
  · obtain ⟨frame, hl⟩ := (isRendering_eq_true_iff s).1 hr
    obtain ⟨left, h⟩ := step_of_takes_inFlight hl ha
    obtain ⟨r, hresp⟩ := completeRender_responds frame a { s with inputs := left }
    exact ⟨_, r, h, completeRender_lifecycle _ _ _, hresp⟩

end Sys2Proof.Machine

/-! SUPPORT. Reset and hazards (70_reset_and_hazards.md): an event takes effect from behind the commands the port holds
(R140, R144), an answer to another write has none (R140), and what a block can answer directly after a reset (R141). -/

namespace Sys2Proof.Machine

/-! ### An event behind the commands the port holds (R140, R144) -/

/-- The next event takes effect and is taken from the inputs. Only a render holds commands before it. -/
theorem step_of_event {s : State} {e : Event} {held : List CmdWord} {rest : List Input}
    (hi : s.inputs = held.map .command ++ .event e :: rest) (hheld : s.isRendering = false → held = []) :
    step s = .next (onEvent e { s with inputs := held.map .command ++ rest }) := by
  cases hr : s.isRendering with
  | false =>
    obtain rfl := hheld hr
    rw [step_of_ready hr, stepReady, hi]
    rfl
  | true =>
    obtain ⟨frame, hl⟩ := (isRendering_eq_true_iff s).1 hr
    have he := (takeEvent_eq_some_iff _ _ _).2 ⟨held, rest, hi, rfl⟩
    rw [step_of_rendering hl, stepRendering, he]

/-- A step during a render is the effect of its first event, and leaves the held commands and the later inputs. -/
theorem step_cases_of_rendering {s t : State} (hr : s.isRendering = true) (h : step s = .next t) :
    ∃ (held : List CmdWord) (e : Event) (rest : List Input), s.inputs = held.map .command ++ .event e :: rest ∧
      t = onEvent e { s with inputs := held.map .command ++ rest } := by
  obtain ⟨-, hport⟩ := everyStepTakesOneInput s t h
  obtain ⟨held, e, rest, hi, -⟩ := hport hr
  have hstep := step_of_event hi fun hf => by simp [hr] at hf
  exact ⟨held, e, rest, hi, Host.Outcome.next.inj (h.symm.trans hstep)⟩

/-- Settles O49: the step is `hardwareReset` at the inputs without it, and logs the write in flight as cut off. -/
theorem resetAbandonsTheWriteInFlight : Obligations.ResetAbandonsTheWriteInFlight := by
  intro s frame held rest hl hi
  have hstep := step_of_event hi fun hr => absurd hl ((isRendering_eq_false_iff s).1 hr frame)
  refine ⟨_, hstep, rfl, rfl, rfl, rfl, rfl, fbByte_of_unconfigured rfl, ?_, rfl, rfl⟩
  simp [onEvent, hl, abortedWrite]

/-! ### Answers to other writes (R140) -/

/-- An answer that does not name the write in flight has no effect (entry 5). -/
theorem onAnswer_of_late {s : State} {call : Nat} (h : s.isRendering = true → call ≠ s.txlog.length) (a : Answer) :
    onAnswer call a s = s := by
  obtain ⟨frame, hl, hcall, -⟩ | ⟨-, ht⟩ := onAnswer_cases call a s
  · exact absurd hcall (h ((isRendering_eq_true_iff s).2 ⟨frame, hl⟩))
  · exact ht

/-- Settles O50: the answer is taken from the inputs, and has no effect. -/
theorem lateAnswersAreIgnored : Obligations.LateAnswersAreIgnored := by
  intro s call a held rest hlate hheld hi
  rw [step_of_event hi hheld]
  exact congrArg Host.Outcome.next (onAnswer_of_late (s := { s with inputs := held.map .command ++ rest }) hlate a)

/-! ### What a render keeps (R144) -/

/-- An answer of the transport leaves the buffer and the registers alone. -/
theorem onAnswer_keeps_buffer (call : Nat) (a : Answer) (s : State) :
    (onAnswer call a s).fb = s.fb ∧ (onAnswer call a s).pixelCount = s.pixelCount ∧
      (onAnswer call a s).symbolWidth = s.symbolWidth ∧ (onAnswer call a s).resetBytes = s.resetBytes := by
  obtain ⟨frame, -, -, ht⟩ | ⟨-, ht⟩ := onAnswer_cases call a s <;> simp [ht]

/-- An event that leaves a render in progress has had no effect: a reset and the end of a render both leave none. -/
theorem onEvent_eq_self_of_rendering {e : Event} {s : State} (h : (onEvent e s).isRendering = true) :
    onEvent e s = s := by
  cases e with
  | reset => simp [onEvent] at h
  | answer call a =>
    rw [onEvent] at h ⊢
    obtain ⟨frame, -, -, ht⟩ | ⟨-, ht⟩ := onAnswer_cases call a s
    · simp [ht] at h
    · exact ht

/-- Settles O32: the step takes an event from behind the held commands; only a reset touches the buffer and the
registers, and an event that leaves the render in progress has no effect. -/
theorem theRenderHoldsTheCommandPort : Obligations.TheRenderHoldsTheCommandPort := by
  intro s t frame hl h
  have hr : s.isRendering = true := (isRendering_eq_true_iff s).2 ⟨frame, hl⟩
  obtain ⟨held, e, left, hi, rfl⟩ := step_cases_of_rendering hr h
  refine ⟨fun hreset => ⟨?_, ?_⟩, fun hstill => ?_, fun w rest i hidle => step_of_command (by simp [hidle])⟩
  · simp [hi, commandWords]
  · cases e with
    | reset => exact absurd (.inr ⟨hr, _, (takeEvent_eq_some_iff _ _ _).2 ⟨held, left, hi, rfl⟩⟩) hreset
    | answer call a => exact onAnswer_keeps_buffer call a { s with inputs := held.map .command ++ left }
  · rw [onEvent_eq_self_of_rendering hstill]

/-! ### Directly after a reset (R141) -/

/-- The values `READ_REG` answers without a buffer (R118). They hold for every build, where the invariant asks for R9's
bound on the capacity. -/
theorem State.Vacant.execReadReg_answers {s : State} (h : s.Vacant) (hl : s.lifecycle = .unconfigured) {n : BitVec 8}
    (hn : n.toNat ≤ 8) : ∃ d, execReadReg n s = .next (respond .ok d s) ∧ (n.toNat ≤ 5 → d = 0) ∧
      (n = 6 → d = s.build.bufCapacity) ∧ (n = 7 → d = if s.build.strictIndex = true then 1 else 0) ∧
      (n = 8 → d = 3) := by
  obtain ⟨r, rfl⟩ := exists_regNumber_eq hn
  refine ⟨_, execReadReg_of_number (regOfNumber_regNumber r), h.readRegister_eq_zero hl, fun h6 => ?_, fun h7 => ?_,
    fun h8 => ?_⟩
  · rw [regNumber_injective (a₂ := .bufCapacity) h6]; rfl
  · rw [regNumber_injective (a₂ := .strictIndex) h7, readRegister_strictIndex]
  · rw [regNumber_injective (a₂ := .swSupported) h8]; rfl

/-- A reset leaves a vacant block, whatever was there (R37). -/
theorem hardwareReset_vacant (s : State) : (hardwareReset s).Vacant := ⟨rfl, rfl, rfl, rfl⟩

/-- Without a buffer every command but `ENCODE`, `READ_REG` and `INIT` answers `NOT_CONFIGURED` (R127). -/
theorem exec_notConfigured_of_unconfigured {s : State} (hl : s.lifecycle = .unconfigured) (i : Instr) :
    (∃ v, i = .encode v) ∨ (∃ n, i = .readReg n) ∨ (∃ p w r, i = .init p w r) ∨
      exec i s = .next (respond .notConfigured 0 s) := by
  cases i with
  | encode v => exact .inl ⟨v, rfl⟩
  | readReg n => exact .inr (.inl ⟨n, rfl⟩)
  | init p w r => exact .inr (.inr (.inl ⟨p, w, r, rfl⟩))
  | setPixel n r g b => exact .inr (.inr (.inr (exec_of_fails (.setPixel hl))))
  | clear => exact .inr (.inr (.inr (exec_of_fails (.clear hl))))
  | render => exact .inr (.inr (.inr (exec_of_fails (.render hl))))
  | release => exact .inr (.inr (.inr (exec_of_fails (.release hl))))
  | readByte a => exact .inr (.inr (.inr (exec_of_fails (.readByte hl))))

/-- Settles O51: a reset leaves an unconfigured block, on which the other five commands fail, the registers have their
values, and the smallest buffer that `INIT` can make fits every build R9 allows. -/
theorem onlyThreeCommandsSucceedAfterReset : Obligations.OnlyThreeCommandsSucceedAfterReset := by
  refine ⟨fun s => exec_notConfigured_of_unconfigured (s := hardwareReset s) rfl, fun s v => ⟨_, _, rfl, rfl⟩,
    fun s n hn => ?_, fun s hb => ?_⟩
  · obtain ⟨d, hx, hvalues⟩ := (hardwareReset_vacant s).execReadReg_answers rfl hn
    exact ⟨_, d, hx, rfl, hvalues⟩
  · have hf : initFails 1 3 0 (hardwareReset s) = false :=
      (initFails_eq_false_iff 1 3 0 (hardwareReset s)).2 ⟨rfl, by decide, rfl, hb⟩
    exact ⟨_, execInit_of_succeeds hf, rfl, rfl⟩

end Sys2Proof.Machine
